-- ==== Sys2Proof/Word.lean ====
section
/-! DEFINITION. The two word types of the core: bytes (registers, timers, memory) and 16-bit words
(instruction words, I, PC, stack slots). Everything is unsigned (00_scope.md R9). -/

namespace Sys2Proof

/-- An 8-bit unsigned value: V registers, timers, SP, memory bytes (10_state.md R20). -/
abbrev Byte := BitVec 8

/-- A 16-bit unsigned value: instruction words, I, PC, return addresses (10_state.md R20). -/
abbrev Word := BitVec 16

/-- A general register number, 0 to 15, always valid (10_state.md R21, 30_encoding.md R94). -/
abbrev Reg := Fin 16

end Sys2Proof
end

