-- ==== Sys2Proof/Config.lean ====
section
/-! DEFINITION. What is fixed for one machine: the sizes the spec gives (00_scope.md R5) and the three open
parameters of R6 that are values, each an opaque constant, so that no proof can see which value it has. -/

namespace Sys2Proof.Config

/-- MEM_SIZE, bytes of memory (00_scope.md R5). -/
abbrev memSize : Nat := 4096

/-- GLYPH_SIZE; the table starts at address 0 (00_scope.md R5). -/
abbrev glyphSize : Nat := 80

/-- PROG_BASE: the first program byte and the PC after reset (00_scope.md R5). -/
abbrev progBase : Nat := 0x200

/-- MAX_IMAGE, the largest image `Load` takes (00_scope.md R5). -/
abbrev maxImage : Nat := 3584

/-- STACK_DEPTH (00_scope.md R5). -/
abbrev stackDepth : Nat := 16

/-- Columns of the display (00_scope.md R5). -/
abbrev screenWidth : Nat := 64

/-- Rows of the display (00_scope.md R5). -/
abbrev screenHeight : Nat := 32

/-- GLYPH, the 80 bytes of MEM[0x000..0x04F] after reset. The source gives the table's place, size and layout
but not its bytes: an open parameter (00_scope.md R6, 10_state.md R38, D17; DESIGN CHOICE, log 8). -/
opaque glyph : Vector Byte glyphSize

/-- The glyphs of the digits 0 to 7 in the conventional font (10_state.md R38). -/
def fontLow : List Byte :=
  [0xF0, 0x90, 0x90, 0x90, 0xF0, 0x20, 0x60, 0x20, 0x20, 0x70, 0xF0, 0x10, 0xF0, 0x80, 0xF0, 0xF0, 0x10, 0xF0, 0x10, 0xF0,
   0x90, 0x90, 0xF0, 0x10, 0x10, 0xF0, 0x80, 0xF0, 0x10, 0xF0, 0xF0, 0x80, 0xF0, 0x90, 0xF0, 0xF0, 0x10, 0x20, 0x40, 0x40]

/-- The glyphs of the digits 8 to F in the conventional font (10_state.md R38). -/
def fontHigh : List Byte :=
  [0xF0, 0x90, 0xF0, 0x90, 0xF0, 0xF0, 0x90, 0xF0, 0x10, 0xF0, 0xF0, 0x90, 0xF0, 0x90, 0x90, 0xE0, 0x90, 0xE0, 0x90, 0xE0,
   0xF0, 0x80, 0x80, 0x80, 0xF0, 0xE0, 0x90, 0x90, 0x90, 0xE0, 0xF0, 0x80, 0xF0, 0x80, 0xF0, 0xF0, 0x80, 0xF0, 0x80, 0x80]

/-- The font 10_state.md R38 offers as the default of GLYPH, from general knowledge (PRESUMED by the spec). The model
does not use it: a claim about a picture takes `Config.glyph = Config.conventionalFont` as a premise (D17, log 8). -/
def conventionalFont : Vector Byte glyphSize := ⟨(fontLow ++ fontHigh).toArray, rfl⟩

/-- The two values of SHIFT_SOURCE (00_scope.md R6). -/
inductive ShiftSource where
  /-- `8xy6` and `8xyE` shift V[x]. -/
  | vx
  /-- `8xy6` and `8xyE` shift V[y]. -/
  | vy
  deriving DecidableEq, Repr, Inhabited

/-- SHIFT_SOURCE: which register `8xy6` and `8xyE` shift. The source does not say: an open parameter
(00_scope.md R6, 41_alu.md R151, D11; DESIGN CHOICE, log 9). -/
opaque shiftSource : ShiftSource

/-- The answers of `RandByte()`: `randByte k` is the k-th byte drawn. Any of the 256 values, under no law
(00_scope.md R6, 41_alu.md R155, D18; DESIGN CHOICE, log 10). -/
opaque randByte : Nat → Byte

end Sys2Proof.Config
end

