-- ==== Sys2Proof/Syntax.lean ====
section
/-! DEFINITION. The instructions, one constructor per row of spec/opcode_table.json, in the order of
30_encoding.md R95. Operands have the width their field has (R92), so every operand of a term is in range. -/

namespace Sys2Proof

/-- One instruction with its operands. Names after the pattern say the row. -/
inductive Instr where
  /-- `00E0`, CLS: clear the framebuffer (43_display.md R191). -/
  | cls
  /-- `00EE`, RET: pop the return address (40_flow.md R121). -/
  | ret
  /-- `1nnn`, JP nnn (40_flow.md R122). -/
  | jp (nnn : BitVec 12)
  /-- `2nnn`, CALL nnn (40_flow.md R123). -/
  | call (nnn : BitVec 12)
  /-- `3xkk`, SE Vx, kk (40_flow.md R125). -/
  | seImm (x : Reg) (kk : Byte)
  /-- `4xkk`, SNE Vx, kk (40_flow.md R126). -/
  | sneImm (x : Reg) (kk : Byte)
  /-- `5xy0`, SE Vx, Vy (40_flow.md R127). -/
  | seReg (x y : Reg)
  /-- `6xkk`, LD Vx, kk (41_alu.md R141). -/
  | ldImm (x : Reg) (kk : Byte)
  /-- `7xkk`, ADD Vx, kk (41_alu.md R142). -/
  | addImm (x : Reg) (kk : Byte)
  /-- `8xy0`, LD Vx, Vy (41_alu.md R145). -/
  | ldReg (x y : Reg)
  /-- `8xy1`, OR Vx, Vy (41_alu.md R146). -/
  | orReg (x y : Reg)
  /-- `8xy2`, AND Vx, Vy (41_alu.md R147). -/
  | andReg (x y : Reg)
  /-- `8xy3`, XOR Vx, Vy (41_alu.md R148). -/
  | xorReg (x y : Reg)
  /-- `8xy4`, ADD Vx, Vy (41_alu.md R149). -/
  | addReg (x y : Reg)
  /-- `8xy5`, SUB Vx, Vy (41_alu.md R150). -/
  | sub (x y : Reg)
  /-- `8xy6`, SHR Vx, Vy (41_alu.md R151). -/
  | shr (x y : Reg)
  /-- `8xy7`, SUBN Vx, Vy (41_alu.md R152). -/
  | subn (x y : Reg)
  /-- `8xyE`, SHL Vx, Vy (41_alu.md R153). -/
  | shl (x y : Reg)
  /-- `9xy0`, SNE Vx, Vy (40_flow.md R128). -/
  | sneReg (x y : Reg)
  /-- `Annn`, LD I, nnn (42_index_memory.md R171). -/
  | ldI (nnn : BitVec 12)
  /-- `Bnnn`, JP V0, nnn (40_flow.md R124). -/
  | jpV0 (nnn : BitVec 12)
  /-- `Cxkk`, RND Vx, kk (41_alu.md R155). -/
  | rnd (x : Reg) (kk : Byte)
  /-- `Dxyn`, DRW Vx, Vy, n (43_display.md R192). -/
  | drw (x y : Reg) (n : Fin 16)
  /-- `Ex9E`, SKP Vx (44_timers_keys.md R214). -/
  | skp (x : Reg)
  /-- `ExA1`, SKNP Vx (44_timers_keys.md R215). -/
  | sknp (x : Reg)
  /-- `Fx07`, LD Vx, DT (44_timers_keys.md R211). -/
  | ldVxDt (x : Reg)
  /-- `Fx0A`, LD Vx, K: wait for a key (44_timers_keys.md R216). -/
  | ldVxK (x : Reg)
  /-- `Fx15`, LD DT, Vx (44_timers_keys.md R212). -/
  | ldDtVx (x : Reg)
  /-- `Fx18`, LD ST, Vx (44_timers_keys.md R213). -/
  | ldStVx (x : Reg)
  /-- `Fx1E`, ADD I, Vx (42_index_memory.md R172). -/
  | addI (x : Reg)
  /-- `Fx29`, LD F, Vx: glyph address (42_index_memory.md R173). -/
  | ldF (x : Reg)
  /-- `Fx33`, LD B, Vx: store BCD (42_index_memory.md R175). -/
  | ldB (x : Reg)
  /-- `Fx55`, LD [I], Vx: store V[0]..V[x] (42_index_memory.md R176). -/
  | stRegs (x : Reg)
  /-- `Fx65`, LD Vx, [I]: load V[0]..V[x] (42_index_memory.md R177). -/
  | ldRegs (x : Reg)
  /-- Every word that matches no pattern: the no-op, with the word it was (30_encoding.md R97, R98). -/
  | nop (w : Word)
  deriving DecidableEq, Repr

end Sys2Proof
end

