-- ==== Sys2Proof/Decode.lean ====
section
/-! DEFINITION. Encoding: the fields of a word (30_encoding.md R92), the 34 patterns of the opcode map (R95), the
decoder (R102), the encoder (R103), and the decoder over bytes. Every word decodes (R99); only a byte string
too short for a word is rejected, by name. -/

namespace Sys2Proof

/-- `w[15:12]`, the top nibble (30_encoding.md R92). -/
def opField (w : Word) : Nat := (w.extractLsb' 12 4).toNat

/-- `w[11:8]`, register number x (30_encoding.md R92). -/
def xField (w : Word) : Reg := (w.extractLsb' 8 4).toFin

/-- `w[7:4]`, register number y (30_encoding.md R92). -/
def yField (w : Word) : Reg := (w.extractLsb' 4 4).toFin

/-- `w[3:0]`, the low nibble n (30_encoding.md R92). -/
def nField (w : Word) : Fin 16 := (w.extractLsb' 0 4).toFin

/-- `w[7:0]`, the low byte kk (30_encoding.md R92). -/
def kkField (w : Word) : Byte := w.extractLsb' 0 8

/-- `w[11:0]`, the low twelve bits nnn (30_encoding.md R92). -/
def nnnField (w : Word) : BitVec 12 := w.extractLsb' 0 12

/-- One row's pattern: its four hexadecimal digits, most significant first; `none` is a digit the pattern leaves
to a field (30_encoding.md R95). -/
structure Pattern where
  d3 : Option Nat
  d2 : Option Nat
  d1 : Option Nat
  d0 : Option Nat
  deriving DecidableEq, Repr

/-- A fixed digit must be equal, a field digit may be anything. -/
def digitFits (d : Option Nat) (v : Nat) : Bool :=
  match d with
  | none => true
  | some k => v == k

/-- `w` matches the pattern exactly in every fixed hexadecimal digit (30_encoding.md R95, D8; log 11). -/
def Pattern.fits (p : Pattern) (w : Word) : Bool :=
  digitFits p.d3 (opField w) && digitFits p.d2 (xField w).val && digitFits p.d1 (yField w).val
    && digitFits p.d0 (nField w).val

/-- The pattern `0ab`, all digits fixed. -/
def patFixed (a b : Nat) : Pattern := ⟨some 0, some 0, some a, some b⟩

/-- The NNN and XKK formats and `Dxyn`: only the top digit is fixed (30_encoding.md R93). -/
def patTop (op : Nat) : Pattern := ⟨some op, none, none, none⟩

/-- The XY format: top and low digit are fixed (30_encoding.md R93). -/
def patXY (op n : Nat) : Pattern := ⟨some op, none, none, some n⟩

/-- The X format: all but the x digit are fixed (30_encoding.md R93). -/
def patX (op a b : Nat) : Pattern := ⟨some op, none, some a, some b⟩

/-- The patterns of families 0 to 7 (30_encoding.md R95). -/
def patternsLow : List Pattern :=
  [patFixed 0xE 0x0, patFixed 0xE 0xE, patTop 1, patTop 2, patTop 3, patTop 4, patXY 5 0, patTop 6, patTop 7]

/-- The patterns of family 8 (30_encoding.md R95, 41_alu.md R143). -/
def patternsAlu : List Pattern :=
  [patXY 8 0, patXY 8 1, patXY 8 2, patXY 8 3, patXY 8 4, patXY 8 5, patXY 8 6, patXY 8 7, patXY 8 0xE]

/-- The patterns of families 9 to F (30_encoding.md R95). -/
def patternsHigh : List Pattern :=
  [patXY 9 0, patTop 0xA, patTop 0xB, patTop 0xC, patTop 0xD, patX 0xE 9 0xE, patX 0xE 0xA 1,
   patX 0xF 0 7, patX 0xF 0 0xA, patX 0xF 1 5, patX 0xF 1 8, patX 0xF 1 0xE, patX 0xF 2 9, patX 0xF 3 3,
   patX 0xF 5 5, patX 0xF 6 5]

/-- The opcode map: the 34 patterns, in the order of 30_encoding.md R95. -/
def patterns : List Pattern := patternsLow ++ patternsAlu ++ patternsHigh

/-- Some row of the opcode map matches `w` (30_encoding.md R95). -/
def matchesTable (w : Word) : Bool := patterns.any (·.fits w)

/-- Family 8 is sub-dispatched on the low nibble (41_alu.md R143). -/
def decodeAlu (w : Word) : Instr :=
  let x := xField w
  let y := yField w
  match (nField w).val with
  | 0x0 => .ldReg x y
  | 0x1 => .orReg x y
  | 0x2 => .andReg x y
  | 0x3 => .xorReg x y
  | 0x4 => .addReg x y
  | 0x5 => .sub x y
  | 0x6 => .shr x y
  | 0x7 => .subn x y
  | 0xE => .shl x y
  | _ => .nop w

/-- Family F is sub-dispatched on the low byte (30_encoding.md R102). -/
def decodeF (w : Word) : Instr :=
  let x := xField w
  match (kkField w).toNat with
  | 0x07 => .ldVxDt x
  | 0x0A => .ldVxK x
  | 0x15 => .ldDtVx x
  | 0x18 => .ldStVx x
  | 0x1E => .addI x
  | 0x29 => .ldF x
  | 0x33 => .ldB x
  | 0x55 => .stRegs x
  | 0x65 => .ldRegs x
  | _ => .nop w

/-- The decoder, total on all 65536 words (30_encoding.md R95, R97, R99, R102). -/
def decode (w : Word) : Instr :=
  match opField w with
  | 0x0 => if w = 0x00E0#16 then .cls else if w = 0x00EE#16 then .ret else .nop w
  | 0x1 => .jp (nnnField w)
  | 0x2 => .call (nnnField w)
  | 0x3 => .seImm (xField w) (kkField w)
  | 0x4 => .sneImm (xField w) (kkField w)
  | 0x5 => if nField w = 0 then .seReg (xField w) (yField w) else .nop w
  | 0x6 => .ldImm (xField w) (kkField w)
  | 0x7 => .addImm (xField w) (kkField w)
  | 0x8 => decodeAlu w
  | 0x9 => if nField w = 0 then .sneReg (xField w) (yField w) else .nop w
  | 0xA => .ldI (nnnField w)
  | 0xB => .jpV0 (nnnField w)
  | 0xC => .rnd (xField w) (kkField w)
  | 0xD => .drw (xField w) (yField w) (nField w)
  | 0xE =>
    match (kkField w).toNat with
    | 0x9E => .skp (xField w)
    | 0xA1 => .sknp (xField w)
    | _ => .nop w
  | 0xF => decodeF w
  | _ => .nop w

/-- `op * 4096 + nnn` (30_encoding.md R103). -/
def wordNNN (op : Nat) (nnn : BitVec 12) : Word := BitVec.ofNat 16 (op * 4096 + nnn.toNat)

/-- `op * 4096 + x * 256 + kk` (30_encoding.md R103). -/
def wordXKK (op : Nat) (x : Reg) (kk : Byte) : Word := BitVec.ofNat 16 (op * 4096 + x.val * 256 + kk.toNat)

/-- `op * 4096 + x * 256 + y * 16 + n` (30_encoding.md R103). -/
def wordXYN (op : Nat) (x y : Reg) (n : Fin 16) : Word :=
  BitVec.ofNat 16 (op * 4096 + x.val * 256 + y.val * 16 + n.val)

/-- The encoder: the word of an instruction (30_encoding.md R103). -/
def encode : Instr → Word
  | .cls => 0x00E0#16
  | .ret => 0x00EE#16
  | .jp nnn => wordNNN 0x1 nnn
  | .call nnn => wordNNN 0x2 nnn
  | .seImm x kk => wordXKK 0x3 x kk
  | .sneImm x kk => wordXKK 0x4 x kk
  | .seReg x y => wordXYN 0x5 x y 0x0
  | .ldImm x kk => wordXKK 0x6 x kk
  | .addImm x kk => wordXKK 0x7 x kk
  | .ldReg x y => wordXYN 0x8 x y 0x0
  | .orReg x y => wordXYN 0x8 x y 0x1
  | .andReg x y => wordXYN 0x8 x y 0x2
  | .xorReg x y => wordXYN 0x8 x y 0x3
  | .addReg x y => wordXYN 0x8 x y 0x4
  | .sub x y => wordXYN 0x8 x y 0x5
  | .shr x y => wordXYN 0x8 x y 0x6
  | .subn x y => wordXYN 0x8 x y 0x7
  | .shl x y => wordXYN 0x8 x y 0xE
  | .sneReg x y => wordXYN 0x9 x y 0x0
  | .ldI nnn => wordNNN 0xA nnn
  | .jpV0 nnn => wordNNN 0xB nnn
  | .rnd x kk => wordXKK 0xC x kk
  | .drw x y n => wordXYN 0xD x y n
  | .skp x => wordXKK 0xE x 0x9E#8
  | .sknp x => wordXKK 0xE x 0xA1#8
  | .ldVxDt x => wordXKK 0xF x 0x07#8
  | .ldVxK x => wordXKK 0xF x 0x0A#8
  | .ldDtVx x => wordXKK 0xF x 0x15#8
  | .ldStVx x => wordXKK 0xF x 0x18#8
  | .addI x => wordXKK 0xF x 0x1E#8
  | .ldF x => wordXKK 0xF x 0x29#8
  | .ldB x => wordXKK 0xF x 0x33#8
  | .stRegs x => wordXKK 0xF x 0x55#8
  | .ldRegs x => wordXKK 0xF x 0x65#8
  | .nop w => w

/-- A word from its two bytes, the lower address's byte first: big-endian (20_memory.md R63). -/
def wordOfBytes (hi lo : Byte) : Word := BitVec.ofNat 16 (hi.toNat * 256 + lo.toNat)

/-- The byte of a word that stands at the lower address (20_memory.md R63). -/
def highByte (w : Word) : Byte := w.extractLsb' 8 8

/-- The byte of a word that stands at the higher address (20_memory.md R63). -/
def lowByte (w : Word) : Byte := w.extractLsb' 0 8

/-- Why a byte string holds no instruction. -/
inductive DecodeError where
  /-- Fewer than the two bytes of a word (30_encoding.md R91). Raised by `decodeBytes`; safe. -/
  | truncated
  deriving DecidableEq, Repr

/-- The instruction at the head of a byte string and the bytes after it (30_encoding.md R91, 20_memory.md R63). -/
def decodeBytes : List Byte → Except DecodeError (Instr × List Byte)
  | hi :: lo :: rest => .ok (decode (wordOfBytes hi lo), rest)
  | _ => .error .truncated

/-- The instruction the decoder reads from the word the opcode table numbers with bit 0 least significant. Every
instruction is one word, so a row of more than 16 bits is none (30_encoding.md R91). -/
def decodeTableWord (nbits w : Nat) : Option Instr :=
  if nbits ≤ 16 then
    let word := BitVec.ofNat 16 (w % 2 ^ nbits)
    match decodeBytes [highByte word, lowByte word] with
    | .ok (i, _) => some i
    | .error _ => none
  else none

end Sys2Proof
end

