-- ==== Sys2Proof/WellFormed.lean ====
section
/-! DEFINITION. Which instruction terms stand for a word. Operands are in range by their types (30_encoding.md R94);
the one thing left to check is that a no-op's word is not the word of another instruction (R97). -/

namespace Sys2Proof

/-- The check: a no-op must carry a word that no row of the opcode map matches (30_encoding.md R97, R98). -/
def Instr.check : Instr → Bool
  | .nop w => !matchesTable w
  | _ => true

/-- An instruction term that stands for a word. -/
abbrev Instr.WellFormed (i : Instr) : Prop := i.check = true

end Sys2Proof
end

