-- ==== Sys2Proof/Machine/State.lean ====
section
/-! DEFINITION. The state record of the core (10_state.md R20) as plain data, its value after reset (R40), and the
reasons for which the model stops. There is no hidden state (R39); `draws` is the model's own counter. -/

namespace Sys2Proof.Machine

/-- The four causes of the spec's FAULT latch (60_exceptions.md R231). -/
inductive FaultCause where
  /-- Code 1: an access above 0xFFF (R231, R236). -/
  | memRange
  /-- Code 2: a store below 0x200 (R231, R236). -/
  | lowWrite
  /-- Code 3: `2nnn` with all sixteen slots in use (R234). -/
  | stackOverflow
  /-- Code 4: `00EE` with no slot in use (R235). -/
  | stackUnderflow
  deriving DecidableEq, Repr

/-- The contents of the FAULT latch (10_state.md R36). -/
structure FaultRecord where
  /-- What happened. -/
  cause : FaultCause
  /-- The address of the instruction whose step faulted. -/
  pc : Word
  /-- Its word, or absent when the fetch itself faulted. -/
  opcode : Option Word
  /-- The offending address (a natural number, 20_memory.md R68) or stack pointer value. -/
  info : Nat
  deriving DecidableEq, Repr

/-- Memory as the list of the bytes that differ from the reset contents, addresses strictly rising (the canonical
form is `Memory.wf`, what an unlisted address reads as is `Memory.background`). -/
structure Memory where
  cells : List Host.Cell
  deriving DecidableEq, Repr

/-- 32 rows of 64 one-bit pixels, bit c of a row is column c (10_state.md R32, R34; log 20). -/
abbrev Framebuffer := Vector (BitVec 64) 32

/-- The state record (10_state.md R20). -/
structure State where
  /-- V[0] to V[15]; V[15] is VF (R21, R22). -/
  v : Vector Byte 16
  /-- The index register I (R24). -/
  i : Word
  /-- The program counter (R25). -/
  pc : Word
  /-- The stack pointer: how many return addresses are on the stack (R27). -/
  sp : Byte
  /-- The sixteen return-address slots (R28). -/
  stack : Vector Word 16
  /-- The delay timer DT (R29). -/
  dt : Byte
  /-- The sound timer ST (R30). -/
  st : Byte
  /-- KEY[0] to KEY[15], true while held (R31). -/
  key : Vector Bool 16
  /-- The framebuffer FB (R32). -/
  fb : Framebuffer
  /-- The mutation flag DRAWF (R35). -/
  drawF : Bool
  /-- MEM (R37). -/
  mem : Memory
  /-- The FAULT latch (R36). -/
  fault : Option FaultRecord
  /-- The model's own: how many bytes `RandByte()` has given, the index of the next one (log 10). -/
  draws : Nat
  deriving DecidableEq, Repr

/-- Why the MODEL stops with a fault. The spec's own faults are not here: they are next states with the FAULT latch
set (log 1). -/
inductive Fault where
  /-- Raised by `00EE` when SP > 16, so that STACK[SP - 1] does not exist. The spec rules such states out
  (10_state.md R27) and no run from reset reaches one (log 5). Safe. -/
  | noStackSlot
  deriving DecidableEq, Repr

/-- Why the model gives an instruction no meaning. -/
inductive Refusal where
  /-- Raised by the arm of an instruction that has no meaning yet; no arm of `exec` raises it now. Safe. -/
  | notModelled (mnemonic : String)
  deriving DecidableEq, Repr

/-- The answer of a step or of an instruction. -/
abbrev Result := Host.Outcome State Fault Refusal

/-- The state after `Initialize` (10_state.md R40, 70_reset_and_hazards.md R270). PC, SP, DT and the glyph table are
the source's; every other value is the spec's choice of zero (D7, DESIGN CHOICE, log 7). Memory has nothing listed:
it reads as its reset contents. -/
def State.reset : State where
  v := Vector.replicate 16 0
  i := 0
  pc := 0x200
  sp := 0
  stack := Vector.replicate 16 0
  dt := 0
  st := 0
  key := Vector.replicate 16 false
  fb := Vector.replicate 32 0
  drawF := false
  mem := ⟨[]⟩
  fault := none
  draws := 0

end Sys2Proof.Machine
end

