-- ==== Sys2Proof/Machine/Memory.lean ====
section
/-! DEFINITION. Memory: what an unlisted address reads as, the raw read and write of one byte, runs of bytes, and the
canonical form they keep. The bounds and the store guard of the spec are in `Machine/Ops.lean`. -/

namespace Sys2Proof.Machine

/-- The reset contents: GLYPH at 0x000-0x04F, zero above (10_state.md R38, R40; log 7, log 8). -/
def Memory.background (a : Nat) : Byte :=
  if h : a < Config.glyphSize then Config.glyph[a] else 0

/-- The byte a cell list gives address `a`. -/
def cellsRead : List Host.Cell → Nat → Byte
  | [], a => Memory.background a
  | (b, u) :: rest, a => if b = a then u else cellsRead rest a

/-- One cell in front of the rest, left out where it says nothing new. -/
def consCell (a : Nat) (u : Byte) (rest : List Host.Cell) : List Host.Cell :=
  if u = Memory.background a then rest else (a, u) :: rest

/-- The cell list after a byte is written, still in rising order. -/
def cellsWrite : List Host.Cell → Nat → Byte → List Host.Cell
  | [], a, u => consCell a u []
  | (b, w) :: rest, a, u =>
    if a < b then consCell a u ((b, w) :: rest)
    else if a = b then consCell a u rest
    else (b, w) :: cellsWrite rest a u

/-- The byte at address `a`. -/
def Memory.read (m : Memory) (a : Nat) : Byte := cellsRead m.cells a

/-- MEM[a] <- u. -/
def Memory.write (m : Memory) (a : Nat) (u : Byte) : Memory := ⟨cellsWrite m.cells a u⟩

/-- A run of bytes, lowest address first (20_memory.md R65). -/
def Memory.writeBytes (m : Memory) (a : Nat) : List Byte → Memory
  | [] => m
  | u :: us => (m.write a u).writeBytes (a + 1) us

/-- The canonical form: addresses strictly rising and inside the address space (20_memory.md R60), no entry equal to
what its address reads as when unlisted. -/
abbrev Memory.wf (m : Memory) : Prop :=
  m.cells.Pairwise (fun c d => c.1 < d.1) ∧
    ∀ c ∈ m.cells, c.1 < Config.memSize ∧ c.2 ≠ Memory.background c.1

end Sys2Proof.Machine
end

