-- ==== Sys2Proof/Machine/Ops.lean ====
section
/-! DEFINITION. The named operations every meaning is built from: registers, the advance of PC, the memory
primitives with the spec's bounds and guard, and taking a fault. -/

namespace Sys2Proof.Machine

/-- Read of V[r] (00_scope.md R10). -/
def State.reg (s : State) (r : Reg) : Byte := s.v[r]

/-- V[r] <- b (00_scope.md R10). -/
def State.setReg (s : State) (r : Reg) (b : Byte) : State := { s with v := s.v.set r b }

/-- The number of VF, the flag register (10_state.md R22). -/
abbrev flagReg : Reg := 15

/-- PC <- PC + 2 mod 65536: the advance before executing (30_encoding.md R90). A second one is a skip
(40_flow.md R120). -/
def State.advance (s : State) : State := { s with pc := s.pc + 2 }

/-- pc <- target (00_scope.md R10). -/
def State.jump (s : State) (target : Word) : State := { s with pc := target }

/-- I <- a. -/
def State.setI (s : State) (a : Word) : State := { s with i := a }

/-- The core is halted while FAULT is not none (60_exceptions.md R233). -/
def State.halted (s : State) : Bool := s.fault.isSome

/-- A fault about to be raised: cause and info (00_scope.md R10, `raise Fault(cause, info)`). -/
structure Trap where
  cause : FaultCause
  info : Nat
  deriving DecidableEq, Repr

/-- Fault entry (60_exceptions.md R232), from the state before the step: everything stays as it was, PC included, and
FAULT takes the record. There is no return: only `Initialize` clears the latch (R233). -/
def State.raiseFault (s : State) (t : Trap) (opcode : Option Word) : State :=
  { s with fault := some { cause := t.cause, pc := s.pc, opcode := opcode, info := t.info } }

/-- How an instruction that can fault ends: with its effect `done`, or with fault entry from the state `s` before the
step (60_exceptions.md R232). The record's opcode is the word of the instruction (log 28). -/
def completeOrTrap (ins : Instr) (t : Option Trap) (s done : State) : Result :=
  .next (match t with
    | none => done
    | some t => s.raiseFault t (some (encode ins)))

/-- The check of `MemRead(a, 1)` (20_memory.md R66). -/
def readTrap (a : Nat) : Option Trap :=
  if a > 0xFFF then some ⟨.memRange, a⟩ else none

/-- The check of `MemWrite(a, 1, v)`: the low guard, then the range (20_memory.md R67). -/
def writeTrap (a : Nat) : Option Trap :=
  if a < 0x200 then some ⟨.lowWrite, a⟩
  else if a > 0xFFF then some ⟨.memRange, a⟩
  else none

/-- The check of an access to `n` bytes from `a` up: the trap of the lowest offending address, if there is one
(20_memory.md R69). Addresses are naturals and never wrap (R68). -/
def firstTrap (check : Nat → Option Trap) : Nat → Nat → Option Trap
  | _, 0 => none
  | a, n + 1 =>
    match check a with
    | some t => some t
    | none => firstTrap check (a + 1) n

/-- `MemRead(a, 2)`, the fetch (20_memory.md R64): the big-endian word at `a`, or the trap. -/
def fetchWord (m : Memory) (a : Nat) : Except Trap Word :=
  if a > 0xFFF then .error ⟨.memRange, a⟩
  else if a + 1 > 0xFFF then .error ⟨.memRange, a + 1⟩
  else .ok (wordOfBytes (m.read a) (m.read (a + 1)))

end Sys2Proof.Machine
end

