-- ==== Sys2Proof/Machine/Operands.lean ====
section
/-! DEFINITION. Every operand form: what an instruction makes of an immediate, a register's value or I before it
computes (30_encoding.md R94). -/

namespace Sys2Proof.Machine

/-- nnn zero-extended to 16 bits, an absolute byte address (30_encoding.md R94). -/
def addressOf (nnn : BitVec 12) : Word := nnn.setWidth 16

/-- A key number is `V[x] & 0xF` (30_encoding.md R94). -/
def keyNumber (b : Byte) : Fin 16 := (b.extractLsb' 0 4).toFin

/-- The address of a glyph, `(V[x] & 0xF) * 5` (42_index_memory.md R173). -/
def glyphAddress (b : Byte) : Word := BitVec.ofNat 16 ((b &&& 0xF#8).toNat * 5)

/-- The first column of a draw, `V[x] mod 64` (43_display.md R193). -/
def startColumn (b : Byte) : Nat := b.toNat % 64

/-- The first row of a draw, `V[y] mod 32` (43_display.md R193). -/
def startRow (b : Byte) : Nat := b.toNat % 32

/-- The rows of an n-row sprite that fit above the bottom edge (43_display.md R192, D14; log 16). -/
def rowsDrawn (n : Fin 16) (y0 : Nat) : Nat := min n.val (32 - y0)

/-- The value `8xy6` and `8xyE` shift, by SHIFT_SOURCE (41_alu.md R151, D11; log 9). -/
def shiftOperand (x y : Reg) (s : State) : Byte :=
  match Config.shiftSource with
  | .vx => s.reg x
  | .vy => s.reg y

/-- Hundreds, tens, ones (42_index_memory.md R175). -/
def bcdDigits (b : Byte) : List Byte :=
  [BitVec.ofNat 8 (b.toNat / 100), BitVec.ofNat 8 (b.toNat / 10 % 10), BitVec.ofNat 8 (b.toNat % 10)]

/-- V[0] to V[x], in order (42_index_memory.md R176). -/
def regBlock (x : Reg) (s : State) : List Byte := s.v.toList.take (x.val + 1)

/-- The V file with V[0] to V[x] loaded from `a` up, the others kept (42_index_memory.md R177). -/
def loadBlock (x : Reg) (a : Nat) (s : State) : Vector Byte 16 :=
  Vector.ofFn fun k => if k ≤ x then s.mem.read (a + k.val) else s.v[k]

/-- The least i with KEY[i] = 1, scanning in ascending index order (44_timers_keys.md R216). -/
def firstHeld (key : Vector Bool 16) : Option (Fin 16) := (List.finRange 16).find? fun k => key[k]

end Sys2Proof.Machine
end

