-- ==== Sys2Proof/Machine/Flags.lean ====
section
/-! DEFINITION. The 8-bit results and the flag VF (10_state.md R22): each computed exactly on numbers and narrowed at
the end (41_alu.md R140), each flag 0 or 1. -/

namespace Sys2Proof.Machine

/-- The value of a flag in VF: 1 or 0 (10_state.md R22). -/
def flagByte (f : Bool) : Byte := if f then 1 else 0

/-- `(a + b) mod 256` (41_alu.md R149). -/
def sumByte (a b : Byte) : Byte := BitVec.ofNat 8 (a.toNat + b.toNat)

/-- `(a - b) mod 256` (41_alu.md R150). -/
def differenceByte (a b : Byte) : Byte := BitVec.ofInt 8 ((a.toNat : Int) - (b.toNat : Int))

/-- Carry: the sum exceeds 255 (41_alu.md R149). -/
def carryFlag (a b : Byte) : Bool := decide (a.toNat + b.toNat > 255)

/-- Not-borrow: minuend >= subtrahend (41_alu.md R150). -/
def notBorrowFlag (a b : Byte) : Bool := decide (a.toNat ≥ b.toNat)

/-- The bit a right shift shifts out, `s[0]` (41_alu.md R151). -/
def rightShiftFlag (b : Byte) : Bool := b.getLsbD 0

/-- The bit a left shift shifts out, `s[7]` (41_alu.md R153). -/
def leftShiftFlag (b : Byte) : Bool := b.getLsbD 7

/-- V[x] <- result, then VF <- flag: the flag is written last and wins (41_alu.md R144, D9; log 12). -/
def State.setResultAndFlag (s : State) (x : Reg) (result : Byte) (flag : Bool) : State :=
  (s.setReg x result).setReg flagReg (flagByte flag)

end Sys2Proof.Machine
end

