-- ==== Sys2Proof/Machine/Alu.lean ====
section
/-! DEFINITION. Register load, arithmetic, logic, shift and random (41_alu.md R140 to R155). Operands are read from the
state before any write (R144). -/

namespace Sys2Proof.Machine

/-- `6xkk`, LD Vx, kk (41_alu.md R141). -/
def execLdImm (x : Reg) (kk : Byte) (s : State) : Result := .next (s.advance.setReg x kk)

/-- `7xkk`, ADD Vx, kk: wraps, no flag (41_alu.md R142). -/
def execAddImm (x : Reg) (kk : Byte) (s : State) : Result := .next (s.advance.setReg x (sumByte (s.reg x) kk))

/-- `8xy0`, LD Vx, Vy (41_alu.md R145). -/
def execLdReg (x y : Reg) (s : State) : Result := .next (s.advance.setReg x (s.reg y))

/-- `8xy1`, OR Vx, Vy: VF untouched (41_alu.md R146, D10; log 13). -/
def execOrReg (x y : Reg) (s : State) : Result := .next (s.advance.setReg x (s.reg x ||| s.reg y))

/-- `8xy2`, AND Vx, Vy: VF untouched (41_alu.md R147, D10; log 13). -/
def execAndReg (x y : Reg) (s : State) : Result := .next (s.advance.setReg x (s.reg x &&& s.reg y))

/-- `8xy3`, XOR Vx, Vy: VF untouched (41_alu.md R148, D10; log 13). -/
def execXorReg (x y : Reg) (s : State) : Result := .next (s.advance.setReg x (s.reg x ^^^ s.reg y))

/-- `8xy4`, ADD Vx, Vy: VF <- carry (41_alu.md R149). -/
def execAddReg (x y : Reg) (s : State) : Result :=
  let a := s.reg x
  let b := s.reg y
  .next (s.advance.setResultAndFlag x (sumByte a b) (carryFlag a b))

/-- `8xy5`, SUB Vx, Vy: VF <- not-borrow of V[x] - V[y] (41_alu.md R150). -/
def execSub (x y : Reg) (s : State) : Result :=
  let a := s.reg x
  let b := s.reg y
  .next (s.advance.setResultAndFlag x (differenceByte a b) (notBorrowFlag a b))

/-- `8xy6`, SHR Vx, Vy: VF <- bit 0 of the shifted operand (41_alu.md R151). -/
def execShr (x y : Reg) (s : State) : Result :=
  let b := shiftOperand x y s
  .next (s.advance.setResultAndFlag x (b >>> 1) (rightShiftFlag b))

/-- `8xy7`, SUBN Vx, Vy: VF <- not-borrow of V[y] - V[x] (41_alu.md R152). -/
def execSubn (x y : Reg) (s : State) : Result :=
  let a := s.reg x
  let b := s.reg y
  .next (s.advance.setResultAndFlag x (differenceByte b a) (notBorrowFlag b a))

/-- `8xyE`, SHL Vx, Vy: VF <- bit 7 of the shifted operand (41_alu.md R153). -/
def execShl (x y : Reg) (s : State) : Result :=
  let b := shiftOperand x y s
  .next (s.advance.setResultAndFlag x (b <<< 1) (leftShiftFlag b))

/-- `Cxkk`, RND Vx, kk: one draw, masked (41_alu.md R155; the draw is a free value, log 10). -/
def execRnd (x : Reg) (kk : Byte) (s : State) : Result :=
  .next ({ s.advance with draws := s.draws + 1 }.setReg x (Config.randByte s.draws &&& kk))

end Sys2Proof.Machine
end

