-- ==== Sys2Proof/Machine/Screen.lean ====
section
/-! DEFINITION. The framebuffer's operations: one pixel, and the sprite blit of 43_display.md R192 as the spec writes
it, a loop over rows with a loop over columns in it. -/

namespace Sys2Proof.Machine

/-- FB[row][col], false outside the display (10_state.md R32). -/
def pixel (fb : Framebuffer) (row col : Nat) : Bool :=
  if h : row < 32 then fb[row].getLsbD col else false

/-- FB[row][col] <- FB[row][col] ^ 1 (43_display.md R192). -/
def flipPixel (fb : Framebuffer) (row col : Nat) : Framebuffer :=
  if h : row < 32 then fb.set row (fb[row] ^^^ BitVec.twoPow 64 col) else fb

/-- A draw in progress: the framebuffer, and whether a sprite bit has met a set pixel. -/
structure Canvas where
  fb : Framebuffer
  hit : Bool
  deriving DecidableEq, Repr

/-- One sprite bit onto one pixel: a 0 bit does nothing, a 1 bit records a collision and flips (43_display.md R192,
R194). -/
def Canvas.drawBit (k : Canvas) (bit : Bool) (row col : Nat) : Canvas where
  fb := if bit then flipPixel k.fb row col else k.fb
  hit := k.hit || (bit && pixel k.fb row col)

/-- The columns c, c + 1, ... of one sprite row (`fuel` of them), stopping at the right edge. Bit 7 is the leftmost
column (43_display.md R192, R193, R196, D13; log 15). -/
def drawColumns (b : Byte) (row x0 : Nat) : Nat → Nat → Canvas → Canvas
  | 0, _, k => k
  | fuel + 1, c, k =>
    if x0 + c > 63 then k
    else drawColumns b row x0 fuel (c + 1) (k.drawBit (b.getLsbD (7 - c)) row (x0 + c))

/-- The sprite rows r, r + 1, ... (`fuel` of them), row r from the byte at `a + r` (43_display.md R192). -/
def drawRows (m : Memory) (a x0 y0 : Nat) : Nat → Nat → Canvas → Canvas
  | 0, _, k => k
  | fuel + 1, r, k => drawRows m a x0 y0 fuel (r + 1) (drawColumns (m.read (a + r)) (y0 + r) x0 8 0 k)

end Sys2Proof.Machine
end

