-- ==== Sys2Proof/Machine/Display.lean ====
section
/-! DEFINITION. The display instructions (43_display.md R190 to R196). -/

namespace Sys2Proof.Machine

/-- `00E0`, CLS (43_display.md R191). -/
def execCls (s : State) : Result :=
  .next { s.advance with fb := Vector.replicate 32 0, drawF := true }

/-- `Dxyn`, DRW Vx, Vy, n (43_display.md R192): coordinates first, then the range check, then VF <- 0 and the blit, VF
the collision flag, DRAWF always set (R193 to R195, D12; log 14). -/
def execDrw (x y : Reg) (n : Fin 16) (s : State) : Result :=
  let x0 := startColumn (s.reg x)
  let y0 := startRow (s.reg y)
  let rows := rowsDrawn n y0
  let drawn := drawRows s.mem s.i.toNat x0 y0 rows 0 { fb := s.fb, hit := false }
  completeOrTrap (.drw x y n) (firstTrap readTrap s.i.toNat rows) s
    ({ s.advance with fb := drawn.fb, drawF := true }.setReg flagReg (flagByte drawn.hit))

end Sys2Proof.Machine
end

