-- ==== Sys2Proof/Machine/Flow.lean ====
section
/-! DEFINITION. Control transfer (40_flow.md R120 to R128) and the no-op (30_encoding.md R97). A meaning starts from
the state before the advance of PC and advances it first (30_encoding.md R90; log 28). -/

namespace Sys2Proof.Machine

/-- Skip the next word if the condition holds: `if c then pc <- PC + 2` (40_flow.md R120). -/
def skipIf (c : Bool) (s : State) : Result :=
  .next (if c then s.advance.advance else s.advance)

/-- `00EE`, RET (40_flow.md R121): STACK_UNDERFLOW at SP = 0, else SP <- SP - 1 and pc <- STACK[SP]. A slot that does
not exist (SP > 16) stops the model (log 5). -/
def execRet (s : State) : Result :=
  if s.sp = 0 then completeOrTrap .ret (some ⟨.stackUnderflow, s.sp.toNat⟩) s s
  else if h : (s.sp - 1).toNat < 16 then
    .next ({ s.advance with sp := s.sp - 1 }.jump s.stack[(s.sp - 1).toNat])
  else .fault .noStackSlot

/-- `1nnn`, JP nnn (40_flow.md R122). -/
def execJp (nnn : BitVec 12) (s : State) : Result := .next (s.advance.jump (addressOf nnn))

/-- `2nnn`, CALL nnn (40_flow.md R123): STACK_OVERFLOW at SP >= 16, else the advanced PC is pushed. -/
def execCall (nnn : BitVec 12) (s : State) : Result :=
  if h : s.sp.toNat < 16 then
    .next ({ s.advance with stack := s.stack.set s.sp.toNat s.advance.pc, sp := s.sp + 1 }.jump (addressOf nnn))
  else completeOrTrap (.call nnn) (some ⟨.stackOverflow, s.sp.toNat⟩) s s

/-- `Bnnn`, JP V0, nnn (40_flow.md R124). -/
def execJpV0 (nnn : BitVec 12) (s : State) : Result :=
  .next (s.advance.jump (BitVec.ofNat 16 (nnn.toNat + (s.reg 0).toNat)))

/-- `3xkk`, SE Vx, kk (40_flow.md R125). -/
def execSeImm (x : Reg) (kk : Byte) (s : State) : Result := skipIf (s.reg x == kk) s

/-- `4xkk`, SNE Vx, kk (40_flow.md R126). -/
def execSneImm (x : Reg) (kk : Byte) (s : State) : Result := skipIf (s.reg x != kk) s

/-- `5xy0`, SE Vx, Vy (40_flow.md R127). -/
def execSeReg (x y : Reg) (s : State) : Result := skipIf (s.reg x == s.reg y) s

/-- `9xy0`, SNE Vx, Vy (40_flow.md R128). -/
def execSneReg (x y : Reg) (s : State) : Result := skipIf (s.reg x != s.reg y) s

/-- The no-op: nothing but the advance, whatever the word (30_encoding.md R97). -/
def execNop (_w : Word) (s : State) : Result := .next s.advance

end Sys2Proof.Machine
end

