-- ==== Sys2Proof/Machine/Index.lean ====
section
/-! DEFINITION. Index register, BCD store, block store and load (42_index_memory.md R170 to R177). I is read and never
moved by a transfer (R174, D15; log 17). All addresses are checked before any effect (20_memory.md R69). -/

namespace Sys2Proof.Machine

/-- `Annn`, LD I, nnn (42_index_memory.md R171). -/
def execLdI (nnn : BitVec 12) (s : State) : Result := .next (s.advance.setI (addressOf nnn))

/-- `Fx1E`, ADD I, Vx: mod 65536, no flag (42_index_memory.md R172). -/
def execAddI (x : Reg) (s : State) : Result :=
  .next (s.advance.setI (BitVec.ofNat 16 (s.i.toNat + (s.reg x).toNat)))

/-- `Fx29`, LD F, Vx (42_index_memory.md R173). -/
def execLdF (x : Reg) (s : State) : Result := .next (s.advance.setI (glyphAddress (s.reg x)))

/-- The end of a store of a run of bytes at I: LOW_WRITE, MEM_RANGE, or all the bytes (20_memory.md R67, R69). -/
def storeBlock (ins : Instr) (bytes : List Byte) (s : State) : Result :=
  completeOrTrap ins (firstTrap writeTrap s.i.toNat bytes.length) s
    { s.advance with mem := s.mem.writeBytes s.i.toNat bytes }

/-- `Fx33`, LD B, Vx (42_index_memory.md R175). -/
def execLdB (x : Reg) (s : State) : Result := storeBlock (.ldB x) (bcdDigits (s.reg x)) s

/-- `Fx55`, LD [I], Vx (42_index_memory.md R176). -/
def execStRegs (x : Reg) (s : State) : Result := storeBlock (.stRegs x) (regBlock x s) s

/-- `Fx65`, LD Vx, [I] (42_index_memory.md R177). -/
def execLdRegs (x : Reg) (s : State) : Result :=
  completeOrTrap (.ldRegs x) (firstTrap readTrap s.i.toNat (x.val + 1)) s
    { s.advance with v := loadBlock x s.i.toNat s }

end Sys2Proof.Machine
end

