-- ==== Sys2Proof/Machine/TimersKeys.lean ====
section
/-! DEFINITION. Timer access, key skips and wait for key (44_timers_keys.md R210 to R216). -/

namespace Sys2Proof.Machine

/-- `Fx07`, LD Vx, DT (44_timers_keys.md R211). -/
def execLdVxDt (x : Reg) (s : State) : Result := .next (s.advance.setReg x s.dt)

/-- `Fx15`, LD DT, Vx (44_timers_keys.md R212). -/
def execLdDtVx (x : Reg) (s : State) : Result := .next { s.advance with dt := s.reg x }

/-- `Fx18`, LD ST, Vx (44_timers_keys.md R213). -/
def execLdStVx (x : Reg) (s : State) : Result := .next { s.advance with st := s.reg x }

/-- `Ex9E`, SKP Vx (44_timers_keys.md R214). -/
def execSkp (x : Reg) (s : State) : Result := skipIf s.key[keyNumber (s.reg x)] s

/-- `ExA1`, SKNP Vx (44_timers_keys.md R215). -/
def execSknp (x : Reg) (s : State) : Result := skipIf (!s.key[keyNumber (s.reg x)]) s

/-- `Fx0A`, LD Vx, K (44_timers_keys.md R216): with no key held PC is rewound by 2, so the word runs again; else the
least held key's number goes to V[x] (D16; log 18). -/
def execLdVxK (x : Reg) (s : State) : Result :=
  .next (match firstHeld s.key with
    | none => s.advance.jump (s.advance.pc - 2)
    | some k => s.advance.setReg x (BitVec.ofNat 8 k.val))

end Sys2Proof.Machine
end

