-- ==== Sys2Proof/Machine/Fetch.lean ====
section
/-! DEFINITION. The front of a step: the halt test and the fetch (30_encoding.md R90), and the placing of a word where
the next fetch finds it. -/

namespace Sys2Proof.Machine

/-- What the front of a step gives: the state in which the step ends without an instruction, or a word to run. -/
inductive Fetched where
  | ended (s : State)
  | word (w : Word)

/-- Halted, a fetch fault, or the word at PC (30_encoding.md R90, 60_exceptions.md R232, R233). -/
def fetchStage (s : State) : Fetched :=
  if s.halted then .ended s
  else match fetchWord s.mem s.pc.toNat with
    | .error t => .ended (s.raiseFault t none)
    | .ok w => .word w

/-- Where the next fetch can happen: PC if a word fits there, else the entry point (70_reset_and_hazards.md R271). -/
def fetchAddress (s : State) : Word := if s.pc.toNat < 0xFFF then s.pc else 0x200

/-- The word `w` stands, high byte first, where the next step fetches. What the fetch needs is set with it: the latch
is clear and PC is an address a word fits at (log 27). The store guard of 20_memory.md R67 is for programs only. -/
def placeWord (s : State) (w : Word) : State :=
  let a := fetchAddress s
  { s with
    pc := a
    fault := none
    mem := s.mem.writeBytes a.toNat [highByte w, lowByte w] }

end Sys2Proof.Machine
end

