-- ==== Sys2Proof/Machine/Step.lean ====
section
/-! DEFINITION. One `Step` event: exactly one fetch-decode-execute cycle (30_encoding.md R90). -/

namespace Sys2Proof.Machine

/-- The front of the step, then the instruction the word selects. No tick, no key scan, no refresh (R90). -/
def step (s : State) : Host.Outcome State Fault Refusal :=
  match fetchStage s with
  | .ended t => .next t
  | .word w => exec (decode w) s

/-- `s` with an instruction placed where the next step fetches. Instructions are 16 bits long, so the bits above
`nbits` and above 16 are zero (30_encoding.md R91; log 27). -/
def State.withFetchWord (s : State) (nbits w : Nat) : State :=
  placeWord s (BitVec.ofNat 16 (w % 2 ^ nbits))

end Sys2Proof.Machine
end

