-- ==== Sys2Proof/Machine/HostEvents.lean ====
section
/-! DEFINITION. What the host does to the core, one function per event of 00_scope.md R7 but `Step`. Each is atomic and
total on every state, a halted one included (60_exceptions.md R233, 70_reset_and_hazards.md R276; log 19, log 23). -/

namespace Sys2Proof.Machine

/-- `Initialize` (70_reset_and_hazards.md R270): always the reset state. The random source is outside the core (R248),
so the model's draw counter goes on (log 10). -/
def hostInitialize (s : State) : State := { State.reset with draws := s.draws }

/-- `RomLoadError` (60_exceptions.md R241). -/
inductive RomLoadError where
  /-- The file-I/O collaborator's; the core never returns it (R274). -/
  | notFound
  /-- The file-I/O collaborator's; the core never returns it (R274). -/
  | unreadable
  /-- The image is longer than 3584 bytes (R274). -/
  | tooLarge
  deriving DecidableEq, Repr

/-- What `Load` answers: none is ok (70_reset_and_hazards.md R273, R274). -/
def loadError (bytes : List Byte) : Option RomLoadError :=
  if bytes.length ≤ Config.maxImage then none else some .tooLarge

/-- `Load(bytes)`: the image from 0x200 up, nothing else; a too large image changes nothing (70_reset_and_hazards.md
R273, R274; log 22). -/
def hostLoad (bytes : List Byte) (s : State) : State :=
  if bytes.length ≤ Config.maxImage then { s with mem := s.mem.writeBytes Config.progBase bytes } else s

/-- One timer's tick: down by 1, floor 0 (60_exceptions.md R243). -/
def tickDown (b : Byte) : Byte := if b.toNat > 0 then b - 1 else b

/-- `TickTimers`: both timers (60_exceptions.md R243, D19; log 19). -/
def hostTickTimers (s : State) : State := { s with dt := tickDown s.dt, st := tickDown s.st }

/-- `SetKey(index, held)`: out-of-range indices are ignored (60_exceptions.md R246). -/
def hostSetKey (index : Int) (held : Bool) (s : State) : State :=
  if h : 0 ≤ index ∧ index ≤ 15 then { s with key := s.key.set index.toNat held } else s

/-- `GetPixel(x, y)`: FB[y][x], false for any out-of-range coordinate (43_display.md R197). -/
def hostGetPixel (x y : Int) (s : State) : Bool :=
  if 0 ≤ x ∧ x ≤ 63 ∧ 0 ≤ y ∧ y ≤ 31 then pixel s.fb y.toNat x.toNat else false

/-- `ReadDrawFlag` (43_display.md R198; log 21). -/
def hostReadDrawFlag (s : State) : Bool := s.drawF

/-- `ClearDrawFlag` (43_display.md R199). -/
def hostClearDrawFlag (s : State) : State := { s with drawF := false }

end Sys2Proof.Machine
end

