-- ==== Sys2Proof/Machine/Events.lean ====
section
/-! DEFINITION. The core under its host: the eight events of 00_scope.md R7, each applied to a state, and a run of any
list of them. A list is a schedule; the spec constrains none (60_exceptions.md R244). -/

namespace Sys2Proof.Machine

/-- The events that act on the core (00_scope.md R7). -/
inductive Event where
  /-- `Initialize` (70_reset_and_hazards.md R270). -/
  | reset
  /-- `Load(bytes)` (R273). -/
  | load (bytes : List Byte)
  /-- `Step` (30_encoding.md R90). -/
  | step
  /-- `TickTimers` (60_exceptions.md R243). -/
  | tickTimers
  /-- `SetKey(index, held)` (R246). -/
  | setKey (index : Int) (held : Bool)
  /-- `GetPixel(x, y)` (43_display.md R197). -/
  | getPixel (x y : Int)
  /-- `ReadDrawFlag` (R198). -/
  | readDrawFlag
  /-- `ClearDrawFlag` (R199). -/
  | clearDrawFlag
  deriving DecidableEq, Repr

/-- What an event gives back to the host (00_scope.md R7). -/
inductive Reply where
  | nothing
  | loaded (error : Option RomLoadError)
  | bit (b : Bool)
  deriving DecidableEq, Repr

/-- The state after an event. -/
def applyEvent (e : Event) (s : State) : Result :=
  match e with
  | .reset => .next (hostInitialize s)
  | .load bytes => .next (hostLoad bytes s)
  | .step => step s
  | .tickTimers => .next (hostTickTimers s)
  | .setKey index held => .next (hostSetKey index held s)
  | .getPixel _ _ => .next s
  | .readDrawFlag => .next s
  | .clearDrawFlag => .next (hostClearDrawFlag s)

/-- The event's answer, given in the state before it. -/
def eventReply (e : Event) (s : State) : Reply :=
  match e with
  | .load bytes => .loaded (loadError bytes)
  | .getPixel x y => .bit (hostGetPixel x y s)
  | .readDrawFlag => .bit (hostReadDrawFlag s)
  | .reset | .step | .tickTimers | .setKey _ _ | .clearDrawFlag => .nothing

/-- A run of events in order, stopping where the model stops. -/
def runEvents : List Event → State → Result
  | [], s => .next s
  | e :: es, s =>
    match applyEvent e s with
    | .next t => runEvents es t
    | .fault r => .fault r
    | .refused r => .refused r

end Sys2Proof.Machine
end

