-- ==== Sys2Proof/Safety.lean ====
section
/-! DEFINITION. The terms claims are stated in: the parts of the state and which of them an instruction may write, the
invariant of unfaulted runs, the spec's tables of faults and of PC, and the end of a run. Each table is transcribed
from the spec's own table, not from the meanings. -/

namespace Sys2Proof.Safety

open Sys2Proof.Machine

/-- The parts of the state record (10_state.md R20), and the model's draw counter. -/
inductive Part where
  | regs | index | pc | stack | delayTimer | soundTimer | keys | framebuffer | drawFlag | memory | latch | draws
  deriving DecidableEq, Repr

/-- `t` has what `s` has in one part: every register, slot, key, pixel and byte of memory. That a claim may observe every
part, though the core exports only pixels and DRAWF, is the model's choice, as 20_memory.md R76 leaves it (DESIGN CHOICE,
log 33). -/
def Same (p : Part) (s t : State) : Prop :=
  match p with
  | .regs => ∀ r : Reg, t.reg r = s.reg r
  | .index => t.i = s.i
  | .pc => t.pc = s.pc
  | .stack => t.sp = s.sp ∧ ∀ k : Fin 16, t.stack[k] = s.stack[k]
  | .delayTimer => t.dt = s.dt
  | .soundTimer => t.st = s.st
  | .keys => ∀ k : Fin 16, t.key[k] = s.key[k]
  | .framebuffer => ∀ row col : Nat, pixel t.fb row col = pixel s.fb row col
  | .drawFlag => t.drawF = s.drawF
  | .memory => ∀ a : Nat, t.mem.read a = s.mem.read a
  | .latch => t.fault = s.fault
  | .draws => t.draws = s.draws

/-- The frame: everything outside the listed parts is unchanged. -/
def KeepsAllBut (ps : List Part) (s t : State) : Prop := ∀ p : Part, p ∉ ps → Same p s t

/-- Every V register but `x` is unchanged. -/
def KeepsRegsBut (x : Reg) (s t : State) : Prop := ∀ r : Reg, r ≠ x → t.reg r = s.reg r

/-- What holds in every state a run from reset reaches (10_state.md R41 (a) and (b), R36 with 60_exceptions.md R232,
R233), and that memory is in canonical form. -/
structure Invariant (s : State) : Prop where
  /-- R41 (a). -/
  spInRange : s.sp.toNat ≤ 16
  /-- Equal memories are equal data. -/
  memCanonical : s.mem.wf
  /-- R41 (b): nothing below 0x200 has changed since `Initialize`. -/
  lowMemory : ∀ a < 0x200, s.mem.read a = Memory.background a
  /-- The record's pc is where PC still stands (60_exceptions.md R232, R233). -/
  latchAtPc : ∀ r, s.fault = some r → r.pc = s.pc

/-- The word at the bytes `a`, `a + 1`, the lower address's byte high (20_memory.md R63). -/
def wordAt (s : State) (a : Nat) : Word := BitVec.ofNat 16 ((s.mem.read a).toNat * 256 + (s.mem.read (a + 1)).toNat)

/-- A word can be fetched at PC and the core is not halted. -/
abbrev CanFetch (s : State) : Prop := s.fault = none ∧ s.pc.toNat ≤ 0xFFE

/-- The program has ended: FAULT is none and the word at PC is a jump to PC (70_reset_and_hazards.md R281, D24;
log 24). -/
def Ended (s : State) : Prop :=
  CanFetch s ∧ ∃ nnn : BitVec 12, (wordAt s s.pc.toNat).toNat = 0x1000 + nnn.toNat ∧ s.pc.toNat = nnn.toNat

/-- The conditions of an access to the addresses `a` to `b` that lies above memory: the info recorded (60_exceptions.md
R231). -/
def aboveMemory (a b : Nat) : Option (FaultCause × Nat) := if b > 0xFFF then some (.memRange, max a 0x1000) else none

/-- The table of faults by instruction (60_exceptions.md R231). -/
def faultTable (i : Instr) (s : State) : Option (FaultCause × Nat) :=
  let base := s.i.toNat
  match i with
  | .ret => if s.sp.toNat = 0 then some (.stackUnderflow, 0) else none
  | .call _ => if s.sp.toNat ≥ 16 then some (.stackOverflow, s.sp.toNat) else none
  | .drw _ y n =>
    let rows := min n.val (32 - (s.reg y).toNat % 32)
    if rows ≥ 1 then aboveMemory base (base + rows - 1) else none
  | .ldRegs x => aboveMemory base (base + x.val)
  | .ldB _ => if base < 0x200 then some (.lowWrite, base) else aboveMemory base (base + 2)
  | .stRegs x => if base < 0x200 then some (.lowWrite, base) else aboveMemory base (base + x.val)
  | .cls | .jp _ | .seImm _ _ | .sneImm _ _ | .seReg _ _ | .ldImm _ _ | .addImm _ _ | .ldReg _ _ | .orReg _ _
  | .andReg _ _ | .xorReg _ _ | .addReg _ _ | .sub _ _ | .shr _ _ | .subn _ _ | .shl _ _ | .sneReg _ _ | .ldI _
  | .jpV0 _ | .rnd _ _ | .skp _ | .sknp _ | .ldVxDt _ | .ldVxK _ | .ldDtVx _ | .ldStVx _ | .addI _ | .ldF _
  | .nop _ => none

/-- How an instruction that does not fault leaves PC (10_state.md R26). -/
def netPc (i : Instr) (s : State) : Nat :=
  let skip (c : Prop) [Decidable c] : Nat := (s.pc.toNat + if c then 4 else 2) % 65536
  match i with
  | .ret => (s.stack.toList.getD (s.sp.toNat - 1) 0).toNat
  | .jp nnn => nnn.toNat
  | .call nnn => nnn.toNat
  | .jpV0 nnn => (nnn.toNat + (s.reg 0).toNat) % 65536
  | .seImm x kk => skip (s.reg x = kk)
  | .sneImm x kk => skip (s.reg x ≠ kk)
  | .seReg x y => skip (s.reg x = s.reg y)
  | .sneReg x y => skip (s.reg x ≠ s.reg y)
  | .skp x => skip (s.key.toList.getD ((s.reg x).toNat % 16) false = true)
  | .sknp x => skip (s.key.toList.getD ((s.reg x).toNat % 16) false = false)
  | .ldVxK _ => if ∃ k : Fin 16, s.key[k] = true then (s.pc.toNat + 2) % 65536 else s.pc.toNat
  | .cls | .ldImm _ _ | .addImm _ _ | .ldReg _ _ | .orReg _ _ | .andReg _ _ | .xorReg _ _ | .addReg _ _ | .sub _ _
  | .shr _ _ | .subn _ _ | .shl _ _ | .ldI _ | .rnd _ _ | .drw _ _ _ | .ldVxDt _ | .ldDtVx _ | .ldStVx _ | .addI _
  | .ldF _ | .ldB _ | .stRegs _ | .ldRegs _ | .nop _ => (s.pc.toNat + 2) % 65536

/-- The parts each instruction may write, its fault included; nothing else changes (00_scope.md R11, D1; log 26). -/
def mayWrite (i : Instr) : List Part :=
  match i with
  | .cls => [.pc, .framebuffer, .drawFlag]
  | .ret | .call _ => [.pc, .stack, .latch]
  | .jp _ | .jpV0 _ | .seImm _ _ | .sneImm _ _ | .seReg _ _ | .sneReg _ _ | .skp _ | .sknp _ | .nop _ => [.pc]
  | .ldImm _ _ | .addImm _ _ | .ldReg _ _ | .orReg _ _ | .andReg _ _ | .xorReg _ _ | .addReg _ _ | .sub _ _
  | .shr _ _ | .subn _ _ | .shl _ _ | .ldVxDt _ | .ldVxK _ => [.pc, .regs]
  | .rnd _ _ => [.pc, .regs, .draws]
  | .ldI _ | .addI _ | .ldF _ => [.pc, .index]
  | .drw _ _ _ => [.pc, .regs, .framebuffer, .drawFlag, .latch]
  | .ldDtVx _ => [.pc, .delayTimer]
  | .ldStVx _ => [.pc, .soundTimer]
  | .ldB _ | .stRegs _ => [.pc, .memory, .latch]
  | .ldRegs _ => [.pc, .regs, .latch]

/-- The V registers each instruction may write (10_state.md R22, R23). -/
def mayWriteReg (i : Instr) (r : Reg) : Prop :=
  match i with
  | .ldImm x _ | .addImm x _ | .ldReg x _ | .orReg x _ | .andReg x _ | .xorReg x _ | .rnd x _ | .ldVxDt x
  | .ldVxK x => r = x
  | .addReg x _ | .sub x _ | .shr x _ | .subn x _ | .shl x _ => r = x ∨ r = 15
  | .drw _ _ _ => r = 15
  | .ldRegs x => r ≤ x
  | .cls | .ret | .jp _ | .call _ | .seImm _ _ | .sneImm _ _ | .seReg _ _ | .sneReg _ _ | .ldI _ | .jpV0 _ | .skp _
  | .sknp _ | .ldDtVx _ | .ldStVx _ | .addI _ | .ldF _ | .ldB _ | .stRegs _ | .nop _ => False

/-- The bytes of memory each instruction may write (42_index_memory.md R175, R176; 10_state.md R37). -/
def mayWriteByte (i : Instr) (s : State) (a : Nat) : Prop :=
  match i with
  | .ldB _ => s.i.toNat ≤ a ∧ a ≤ s.i.toNat + 2
  | .stRegs x => s.i.toNat ≤ a ∧ a ≤ s.i.toNat + x.val
  | .cls | .ret | .jp _ | .call _ | .seImm _ _ | .sneImm _ _ | .seReg _ _ | .ldImm _ _ | .addImm _ _ | .ldReg _ _
  | .orReg _ _ | .andReg _ _ | .xorReg _ _ | .addReg _ _ | .sub _ _ | .shr _ _ | .subn _ _ | .shl _ _ | .sneReg _ _
  | .ldI _ | .jpV0 _ | .rnd _ _ | .drw _ _ _ | .skp _ | .sknp _ | .ldVxDt _ | .ldVxK _ | .ldDtVx _ | .ldStVx _
  | .addI _ | .ldF _ | .ldRegs _ | .nop _ => False

/-- The stack slots each instruction may write: a call its own, a return none (40_flow.md R121, R123). -/
def mayWriteSlot (i : Instr) (s : State) (k : Fin 16) : Prop :=
  match i with
  | .call _ => k.val = s.sp.toNat
  | .cls | .ret | .jp _ | .seImm _ _ | .sneImm _ _ | .seReg _ _ | .ldImm _ _ | .addImm _ _ | .ldReg _ _ | .orReg _ _
  | .andReg _ _ | .xorReg _ _ | .addReg _ _ | .sub _ _ | .shr _ _ | .subn _ _ | .shl _ _ | .sneReg _ _ | .ldI _
  | .jpV0 _ | .rnd _ _ | .drw _ _ _ | .skp _ | .sknp _ | .ldVxDt _ | .ldVxK _ | .ldDtVx _ | .ldStVx _ | .addI _
  | .ldF _ | .ldB _ | .stRegs _ | .ldRegs _ | .nop _ => False

/-- The pixels each instruction may write: a clear all, a draw the n rows of eight columns from its coordinates, as far as
they are on the display (43_display.md R191 to R193). -/
def mayWritePixel (i : Instr) (s : State) (row col : Nat) : Prop :=
  match i with
  | .cls => True
  | .drw x y n =>
    let x0 := (s.reg x).toNat % 64
    let y0 := (s.reg y).toNat % 32
    y0 ≤ row ∧ row < y0 + n.val ∧ row ≤ 31 ∧ x0 ≤ col ∧ col < x0 + 8 ∧ col ≤ 63
  | .ret | .jp _ | .call _ | .seImm _ _ | .sneImm _ _ | .seReg _ _ | .ldImm _ _ | .addImm _ _ | .ldReg _ _ | .orReg _ _
  | .andReg _ _ | .xorReg _ _ | .addReg _ _ | .sub _ _ | .shr _ _ | .subn _ _ | .shl _ _ | .sneReg _ _ | .ldI _
  | .jpV0 _ | .rnd _ _ | .skp _ | .sknp _ | .ldVxDt _ | .ldVxK _ | .ldDtVx _ | .ldStVx _ | .addI _ | .ldF _ | .ldB _
  | .stRegs _ | .ldRegs _ | .nop _ => False

/-- The sprite bit drawn onto FB[row][col] by a draw at column x0, row y0 of `rows` rows from `a`: true only for a 1
bit inside the clip (43_display.md R193, R196). -/
def spriteBit (m : Memory) (a x0 y0 rows row col : Nat) : Bool :=
  decide (y0 ≤ row ∧ row < y0 + rows ∧ row ≤ 31 ∧ x0 ≤ col ∧ col < x0 + 8 ∧ col ≤ 63)
    && (m.read (a + (row - y0))).getLsbD (7 - (col - x0))

end Sys2Proof.Safety
end

