-- ==== Sys2Proof/Certificates/Slice0/Obligations.lean ====
section
/-! DEFINITION. The statements for the provers. Every per-instruction statement says, as its conclusion, that `exec`
answers a next state, what that state holds, and that nothing else changed. A docstring that names a decision D<n> says
that the clause is the spec's own choice where its source is silent, recorded in the log entry named there. -/

open Sys2Proof Sys2Proof.Machine Sys2Proof.Safety

/-! ## Encoding -/

/-- Decoding an encoded instruction gives it back, with every operand at every value (30_encoding.md section 7). -/
def Obligations.DecodeOfEncodeIsIdentity : Prop := ∀ i : Instr, i.WellFormed → decode (encode i) = i

/-- Encoding a decoded word gives the word back: no bit of a word is lost. For the words of the 34 patterns the spec makes
encoding the inverse of decoding (30_encoding.md section 7); that a no-op word is kept whole is the model's choice
(log 30). -/
def Obligations.EncodeOfDecodeIsIdentity : Prop := ∀ w : Word, encode (decode w) = w

/-- The decoder and the opcode map agree: a word decodes to the no-op exactly when no pattern matches it, and what the
decoder gives is well formed (30_encoding.md sections 4 and 5; exact match of every fixed digit is D8, log 11). -/
def Obligations.DecoderAgreesWithPatternTable : Prop :=
  ∀ w : Word, (decode w).WellFormed ∧ (decode w = .nop w ↔ ∀ p ∈ patterns, p.fits w = false)

/-- The no-op words, family by family (30_encoding.md section 5; D8, log 11). -/
def Obligations.NoOpWordsByFamily : Prop :=
  ∀ w : Word, (∃ v, decode w = .nop v) ↔
    let op := w.toNat / 4096
    let n := w.toNat % 16
    let kk := w.toNat % 256
    (op = 0x0 ∧ w ≠ 0x00E0#16 ∧ w ≠ 0x00EE#16) ∨ (op = 0x5 ∧ n ≠ 0) ∨
      (op = 0x8 ∧ n ∈ [0x8, 0x9, 0xA, 0xB, 0xC, 0xD, 0xF]) ∨ (op = 0x9 ∧ n ≠ 0) ∨
      (op = 0xE ∧ kk ∉ [0x9E, 0xA1]) ∨
      (op = 0xF ∧ kk ∉ [0x07, 0x0A, 0x15, 0x18, 0x1E, 0x29, 0x33, 0x55, 0x65])

/-- No word matches two patterns of the opcode map (30_encoding.md section 4). -/
def Obligations.NoTwoPatternsOverlap : Prop :=
  ∀ w : Word, (patterns.filter fun p => p.fits w).length ≤ 1

/-- One word of each of the 34 patterns, written out from its encoding with different digits in its fields, decodes to the
instruction it stands for, and one unmatched word to the no-op (30_encoding.md sections 4, 5 and 7). -/
def Obligations.SampleWordsDecode : Prop :=
  (decode 0x00E0#16 = .cls ∧ decode 0x00EE#16 = .ret ∧ decode 0x1ABC#16 = .jp 0xABC#12 ∧
    decode 0x2ABC#16 = .call 0xABC#12 ∧ decode 0x3A05#16 = .seImm 0xA 0x05#8 ∧ decode 0x4A05#16 = .sneImm 0xA 0x05#8 ∧
    decode 0x5120#16 = .seReg 1 2 ∧ decode 0x6A05#16 = .ldImm 0xA 0x05#8 ∧ decode 0x7A05#16 = .addImm 0xA 0x05#8) ∧
  (decode 0x8120#16 = .ldReg 1 2 ∧ decode 0x8121#16 = .orReg 1 2 ∧ decode 0x8122#16 = .andReg 1 2 ∧
    decode 0x8123#16 = .xorReg 1 2 ∧ decode 0x8124#16 = .addReg 1 2 ∧ decode 0x8125#16 = .sub 1 2 ∧
    decode 0x8126#16 = .shr 1 2 ∧ decode 0x8127#16 = .subn 1 2 ∧ decode 0x812E#16 = .shl 1 2) ∧
  (decode 0x9120#16 = .sneReg 1 2 ∧ decode 0xA2F0#16 = .ldI 0x2F0#12 ∧ decode 0xB2F0#16 = .jpV0 0x2F0#12 ∧
    decode 0xCA05#16 = .rnd 0xA 0x05#8 ∧ decode 0xD125#16 = .drw 1 2 5 ∧ decode 0xE19E#16 = .skp 1 ∧
    decode 0xE1A1#16 = .sknp 1) ∧
  (decode 0xF307#16 = .ldVxDt 3 ∧ decode 0xF30A#16 = .ldVxK 3 ∧ decode 0xF315#16 = .ldDtVx 3 ∧
    decode 0xF318#16 = .ldStVx 3 ∧ decode 0xF31E#16 = .addI 3 ∧ decode 0xF329#16 = .ldF 3 ∧ decode 0xF333#16 = .ldB 3 ∧
    decode 0xF355#16 = .stRegs 3 ∧ decode 0xF365#16 = .ldRegs 3) ∧
  decode 0x8128#16 = .nop 0x8128#16

/-! ## The step -/

/-- When a word can be fetched and the two bytes at PC, the lower address's byte high, decode to `i`, the step is `exec`
of `i` on the same state; the advance of PC is part of `exec` (30_encoding.md section 1, 20_memory.md section 2). -/
def Obligations.StepRunsTheDecodedInstruction : Prop :=
  ∀ (s : State) (i : Instr), CanFetch s →
    decode (BitVec.ofNat 16 ((s.mem.read s.pc.toNat).toNat * 256 + (s.mem.read (s.pc.toNat + 1)).toNat)) = i →
      step s = exec i s

/-- The bytes of a well-formed instruction placed for the next fetch are run by the next step, from every state: the
model's reading of a program placed from outside (log 27). -/
def Obligations.PlacedInstructionRunsNext : Prop :=
  ∀ (s : State) (i : Instr), s.mem.wf → i.WellFormed →
    step (s.withFetchWord 16 (encode i).toNat) = exec i (s.withFetchWord 16 (encode i).toNat)

/-- A fetch that reaches above 0xFFF enters the latch with no opcode and the lowest address above memory, and changes
nothing else (20_memory.md section 2, 60_exceptions.md sections 2 and 3; the fatal policy is D2 and D5, log 1, log 2). -/
def Obligations.FetchAboveMemoryFaults : Prop :=
  ∀ s : State, s.fault = none → s.pc.toNat ≥ 0xFFF →
    step s = .next { s with fault := some { cause := .memRange, pc := s.pc, opcode := none, info := max s.pc.toNat 0x1000 } }

/-- A halted core does nothing in a step (60_exceptions.md section 3; D28, log 23). -/
def Obligations.HaltedStepChangesNothing : Prop :=
  ∀ s : State, s.fault ≠ none → step s = .next s

/-- A latched fault keeps its first record through every event but `Initialize`, which clears it. Meanwhile a step changes
nothing, a tick counts both timers down, a key is latched, a pixel and the draw flag are read, the draw flag is cleared and
an image is copied (60_exceptions.md section 3; D28, log 23). -/
def Obligations.OnlyInitializeClearsTheLatch : Prop :=
  ∀ (s : State) (r : FaultRecord), s.fault = some r →
    (∀ e : Event, e ≠ .reset → ∃ t, applyEvent e s = .next t ∧ t.fault = some r ∧ t.pc = s.pc) ∧
      (∃ t, applyEvent .reset s = .next t ∧ t.fault = none) ∧
      applyEvent .step s = .next s ∧
      (∃ t, applyEvent .tickTimers s = .next t ∧ t.dt.toNat = s.dt.toNat - 1 ∧ t.st.toNat = s.st.toNat - 1) ∧
      (∀ (k : Fin 16) (held : Bool), ∃ t, applyEvent (.setKey k.val held) s = .next t ∧ t.key[k] = held) ∧
      (∀ (col : Fin 64) (row : Fin 32), eventReply (.getPixel col.val row.val) s = .bit (pixel s.fb row col)) ∧
      eventReply .readDrawFlag s = .bit s.drawF ∧
      (∃ t, applyEvent .clearDrawFlag s = .next t ∧ t.drawF = false) ∧
      ∀ bytes : List Byte, s.mem.wf → bytes.length ≤ 3584 → ∃ t, applyEvent (.load bytes) s = .next t ∧
        ∀ (k : Nat) (h : k < bytes.length), t.mem.read (0x200 + k) = bytes[k]

/-- A step that faults changes nothing but the latch, and the record holds the pc of the instruction and its fetched
word, absent when the fetch faulted (60_exceptions.md section 3; D5, D6, log 1, log 6). -/
def Obligations.FaultingStepChangesOnlyTheLatch : Prop :=
  ∀ s t : State, s.fault = none → step s = .next t → t.fault ≠ none →
    ∃ (c : FaultCause) (info : Nat),
      t = { s with fault := some {
        cause := c
        pc := s.pc
        opcode := if s.pc.toNat ≤ 0xFFE then some (wordAt s s.pc.toNat) else none
        info := info } }

/-- Which steps and instructions fault, when, and with which record: the whole table of 60_exceptions.md section 2, the
fetch's row first, and that nothing else faults. First clause: a step of an unfaulted core checks the fetch, then the
instruction of the fetched word. Second clause: the same of `exec` alone, whose record names the instruction's own word
(the model's arrangement, log 28). The policies are the spec's choices D2, D3, D4 and D6 (log 2, log 3, log 4, log 6). -/
def Obligations.FaultsAreExactlyTheTable : Prop :=
  (∀ s t : State, s.fault = none → step s = .next t →
    t.fault =
      if s.pc.toNat ≥ 0xFFF then
        some { cause := .memRange, pc := s.pc, opcode := none, info := max s.pc.toNat 0x1000 }
      else
        (faultTable (decode (wordAt s s.pc.toNat)) s).map fun f =>
          { cause := f.1, pc := s.pc, opcode := some (wordAt s s.pc.toNat), info := f.2 }) ∧
  ∀ (i : Instr) (s t : State), s.fault = none → exec i s = .next t →
    t.fault = (faultTable i s).map fun f =>
      { cause := f.1, pc := s.pc, opcode := some (encode i), info := f.2 }

/-- `00EE` with SP above 16 stops the model by name, and nothing else ever stops it: every other instruction answers a
next state from every state (10_state.md section 5; the stop is the model's choice, log 5). -/
def Obligations.OnlyReturnFromNoSlotStops : Prop :=
  ∀ (i : Instr) (s : State),
    (i = .ret ∧ s.sp.toNat > 16 ∧ exec i s = .fault .noStackSlot) ∨
      ((i = .ret → s.sp.toNat ≤ 16) ∧ ∃ t, exec i s = .next t)

/-! ## Reset, invariants, reachable states -/

/-- The reset state: PC 0x200, SP 0, DT 0 and the glyph table are the source's values; the zeros of V, I, ST, STACK, KEY,
FB, DRAWF and the rest of memory are the spec's choice (10_state.md section 12; D7, log 7). -/
def Obligations.ResetStateValues : Prop :=
  let s := State.reset
  s.pc = 0x200#16 ∧ s.sp = 0#8 ∧ s.dt = 0#8 ∧ (∀ a : Fin 80, s.mem.read a = Config.glyph[a]) ∧
    s.st = 0#8 ∧ s.i = 0#16 ∧ (∀ r : Reg, s.reg r = 0#8) ∧ (∀ k : Fin 16, s.stack[k] = 0#16 ∧ s.key[k] = false) ∧
    (∀ row col : Nat, pixel s.fb row col = false) ∧ s.drawF = false ∧ s.fault = none ∧
    (∀ a : Nat, 80 ≤ a → s.mem.read a = 0#8)

/-- The invariant holds at reset (10_state.md section 13). -/
def Obligations.ResetMeetsInvariant : Prop := Invariant State.reset

/-- Every step keeps the invariant: SP at most 16, memory canonical, nothing below 0x200 changed, a latched record at PC
(10_state.md section 13). -/
def Obligations.StepKeepsInvariant : Prop := ∀ s t : State, Invariant s → step s = .next t → Invariant t

/-- From every state that meets the invariant, a step answers a next state that meets it, and so does every event of the
host: the core never stops (60_exceptions.md section 1: no error is raised to the outside; 10_state.md section 13;
70_reset_and_hazards.md section 5; which events there are is D19, log 19). -/
def Obligations.StepsAndEventsKeepInvariant : Prop :=
  ∀ s : State, Invariant s → (∃ t, step s = .next t ∧ Invariant t) ∧
    ∀ e : Event, ∃ t, applyEvent e s = .next t ∧ Invariant t

/-- Under ANY list of host events and steps from reset, in any order, the model never stops and the state meets the
invariant (10_state.md section 13, 60_exceptions.md section 8, 70_reset_and_hazards.md section 3; log 19). -/
def Obligations.EveryScheduleMeetsInvariant : Prop :=
  ∀ es : List Event, ∃ t, runEvents es State.reset = .next t ∧ Invariant t

/-! ## Whole-machine rules -/

/-- Closed world: an instruction changes only the parts of the state its rule writes, and within them only the V
registers, the bytes of memory, the stack slots and the pixels its rule writes (00_scope.md section 6, 10_state.md
sections 2 to 10; D1, log 26). -/
def Obligations.InstructionsWriteOnlyWhatTheyName : Prop :=
  ∀ (i : Instr) (s t : State), exec i s = .next t →
    KeepsAllBut (mayWrite i) s t ∧
      (∀ r : Reg, ¬ mayWriteReg i r → t.reg r = s.reg r) ∧
      (∀ a : Nat, ¬ mayWriteByte i s a → t.mem.read a = s.mem.read a) ∧
      (∀ k : Fin 16, ¬ mayWriteSlot i s k → t.stack[k] = s.stack[k]) ∧
      ∀ row col : Nat, ¬ mayWritePixel i s row col → pixel t.fb row col = pixel s.fb row col

/-- How every instruction leaves PC when it does not fault (10_state.md section 4). -/
def Obligations.NetChangeOfPc : Prop :=
  ∀ (i : Instr) (s t : State), s.fault = none → exec i s = .next t → t.fault = none → t.pc.toNat = netPc i s

/-- The six flag writers leave VF 0 or 1, also when x or y is 15 (10_state.md section 2; the order of the writes is D9,
log 12). -/
def Obligations.FlagWritersLeaveZeroOrOne : Prop :=
  ∀ (i : Instr) (s t : State), s.fault = none → exec i s = .next t → t.fault = none →
    (∃ x y, i = .addReg x y ∨ i = .sub x y ∨ i = .shr x y ∨ i = .subn x y ∨ i = .shl x y ∨ ∃ n, i = .drw x y n) →
      t.reg 15 = 0#8 ∨ t.reg 15 = 1#8

/-- No instruction changes a byte below 0x200, from any state (20_memory.md section 1; the guard is D4, log 3). -/
def Obligations.NoStoreBelowProgramBase : Prop :=
  ∀ (i : Instr) (s t : State), exec i s = .next t → ∀ a < 0x200, t.mem.read a = s.mem.read a

/-- No instruction but `Ex9E`, `ExA1` and `Fx0A` sees the keys: with other keys it does the same to everything else
(10_state.md section 7). -/
def Obligations.KeysAreSeenByKeyInstructionsOnly : Prop :=
  ∀ (i : Instr) (s t : State) (key : Vector Bool 16),
    (∀ x, i ≠ .skp x ∧ i ≠ .sknp x ∧ i ≠ .ldVxK x) → exec i s = .next t →
      exec i { s with key := key } = .next { t with key := key }

/-- No instruction reads ST or DRAWF: with other values there it does the same to everything else (10_state.md sections 6
and 8). -/
def Obligations.SoundTimerAndDrawFlagAreNeverRead : Prop :=
  ∀ (i : Instr) (s t : State) (b : Byte) (f : Bool), exec i s = .next t →
    ∃ u, exec i { s with st := b, drawF := f } = .next u ∧ KeepsAllBut [.soundTimer, .drawFlag] t u

/-! ## Register load, arithmetic, logic, shift, random -/

/-- `6xkk` (41_alu.md R141). -/
def Obligations.LoadImmediate : Prop :=
  ∀ (x : Reg) (kk : Byte),
    decode (BitVec.ofNat 16 (0x6000 + x.val * 256 + kk.toNat)) = .ldImm x kk ∧
    ∀ s : State, ∃ t, exec (.ldImm x kk) s = .next t ∧
      t.reg x = kk ∧ KeepsRegsBut x s t ∧ t.pc = s.pc + 2 ∧ KeepsAllBut [.regs, .pc] s t

/-- `7xkk`: wraps mod 256, no flag (41_alu.md R142). -/
def Obligations.AddImmediateWrapsWithoutFlag : Prop :=
  ∀ (x : Reg) (kk : Byte),
    decode (BitVec.ofNat 16 (0x7000 + x.val * 256 + kk.toNat)) = .addImm x kk ∧
    ∀ s : State, ∃ t, exec (.addImm x kk) s = .next t ∧
      (t.reg x).toNat = ((s.reg x).toNat + kk.toNat) % 256 ∧ KeepsRegsBut x s t ∧ t.pc = s.pc + 2 ∧
      KeepsAllBut [.regs, .pc] s t

/-- `8xy0` to `8xy3`: copy, OR, AND, XOR into V[x], bit by bit; VF is not written unless it is V[x] (41_alu.md section 3;
D10, log 13). -/
def Obligations.CopyAndLogicWriteOnlyVx : Prop :=
  ∀ (x y : Reg) (s : State),
    let ends (i : Instr) (bit : Bool → Bool → Bool) : Prop :=
      ∃ t, exec i s = .next t ∧
        (∀ k < 8, (t.reg x).getLsbD k = bit ((s.reg x).getLsbD k) ((s.reg y).getLsbD k)) ∧
        KeepsRegsBut x s t ∧ t.pc = s.pc + 2 ∧ KeepsAllBut [.regs, .pc] s t
    ends (.ldReg x y) (fun _ b => b) ∧ ends (.orReg x y) (fun a b => a || b) ∧
      ends (.andReg x y) (fun a b => a && b) ∧ ends (.xorReg x y) (fun a b => a != b)

/-- `8xy4`: V[x] is the sum mod 256 unless x = 15, VF is 1 iff the sum exceeds 255, also when x or y is 15 (41_alu.md
section 3; operands first, flag last is D9, log 12). -/
def Obligations.AddRegistersWithCarryFlag : Prop :=
  ∀ (x y : Reg) (s : State), ∃ t, exec (.addReg x y) s = .next t ∧
    let sum := (s.reg x).toNat + (s.reg y).toNat
    (x ≠ 15 → (t.reg x).toNat = sum % 256) ∧ (t.reg 15).toNat = (if sum > 255 then 1 else 0) ∧
      (∀ r : Reg, r ≠ x → r ≠ 15 → t.reg r = s.reg r) ∧ t.pc = s.pc + 2 ∧ KeepsAllBut [.regs, .pc] s t

/-- `8xy5` and `8xy7`: V[x] is the difference mod 256 unless x = 15, VF is 1 iff minuend >= subtrahend; the minuend is
V[x] for `8xy5` and V[y] for `8xy7`, both read before any write (41_alu.md section 3; D9, log 12). -/
def Obligations.SubtractWithNotBorrowFlag : Prop :=
  ∀ (x y : Reg) (s : State),
    let ends (i : Instr) (minuend subtrahend : Nat) : Prop :=
      ∃ t, exec i s = .next t ∧
        (x ≠ 15 → ((t.reg x).toNat + subtrahend) % 256 = minuend) ∧
        (t.reg 15).toNat = (if minuend ≥ subtrahend then 1 else 0) ∧
        (∀ r : Reg, r ≠ x → r ≠ 15 → t.reg r = s.reg r) ∧ t.pc = s.pc + 2 ∧ KeepsAllBut [.regs, .pc] s t
    ends (.sub x y) (s.reg x).toNat (s.reg y).toNat ∧ ends (.subn x y) (s.reg y).toNat (s.reg x).toNat

/-- `8xy6` and `8xyE`, for either setting of SHIFT_SOURCE: the shifted operand is V[x] or V[y], VF ends as the bit shifted
out (41_alu.md section 3; SHIFT_SOURCE is D11, log 9; the order is D9, log 12). -/
def Obligations.ShiftsByOneBit : Prop :=
  ∀ (x y : Reg) (s : State),
    let operand := (match Config.shiftSource with | .vx => s.reg x | .vy => s.reg y).toNat
    let ends (i : Instr) (result flag : Nat) : Prop :=
      ∃ t, exec i s = .next t ∧ (x ≠ 15 → (t.reg x).toNat = result) ∧ (t.reg 15).toNat = flag ∧
        (∀ r : Reg, r ≠ x → r ≠ 15 → t.reg r = s.reg r) ∧ t.pc = s.pc + 2 ∧ KeepsAllBut [.regs, .pc] s t
    ends (.shr x y) (operand / 2) (operand % 2) ∧ ends (.shl x y) (operand * 2 % 256) (operand / 128)

/-- `Cxkk`: one byte of the free stream, masked; the next draw is the next element (41_alu.md section 4; the draw is D18,
log 10). -/
def Obligations.RandomByteIsMasked : Prop :=
  ∀ (x : Reg) (kk : Byte) (s : State), ∃ t, exec (.rnd x kk) s = .next t ∧
    (∀ k < 8, (t.reg x).getLsbD k = ((Config.randByte s.draws).getLsbD k && kk.getLsbD k)) ∧
    t.draws = s.draws + 1 ∧ KeepsRegsBut x s t ∧ t.pc = s.pc + 2 ∧ KeepsAllBut [.regs, .pc, .draws] s t

/-! ## Control transfer and the no-op -/

/-- `1nnn`: pc <- nnn, and a jump to its own address changes no state (40_flow.md, the rule
on `1nnn`). -/
def Obligations.JumpAbsolute : Prop :=
  ∀ nnn : BitVec 12,
    decode (BitVec.ofNat 16 (0x1000 + nnn.toNat)) = .jp nnn ∧
    ∀ s : State, (∃ t, exec (.jp nnn) s = .next t ∧ t.pc.toNat = nnn.toNat ∧ KeepsAllBut [.pc] s t) ∧
      (s.pc.toNat = nnn.toNat → exec (.jp nnn) s = .next s)

/-- `Bnnn`: pc <- nnn + V[0], never wrapping, at most 0x10FE, whatever register the x digit would name (40_flow.md,
the rule on `Bnnn`). -/
def Obligations.JumpIndexedByV0 : Prop :=
  ∀ nnn : BitVec 12,
    decode (BitVec.ofNat 16 (0xB000 + nnn.toNat)) = .jpV0 nnn ∧
    ∀ s : State, ∃ t, exec (.jpV0 nnn) s = .next t ∧ t.pc.toNat = nnn.toNat + (s.reg 0).toNat ∧
      t.pc.toNat ≤ 0x10FE ∧ KeepsAllBut [.pc] s t

/-- `3xkk` and `4xkk`: skip the next word iff V[x] = kk, iff V[x] != kk (40_flow.md R125, R126). -/
def Obligations.SkipOnImmediate : Prop :=
  ∀ (x : Reg) (kk : Byte),
    decode (BitVec.ofNat 16 (0x3000 + x.val * 256 + kk.toNat)) = .seImm x kk ∧
    decode (BitVec.ofNat 16 (0x4000 + x.val * 256 + kk.toNat)) = .sneImm x kk ∧
    ∀ s : State,
      (∃ t, exec (.seImm x kk) s = .next t ∧ t.pc = s.pc + (if s.reg x = kk then 4 else 2) ∧ KeepsAllBut [.pc] s t) ∧
      (∃ t, exec (.sneImm x kk) s = .next t ∧ t.pc = s.pc + (if s.reg x = kk then 2 else 4) ∧ KeepsAllBut [.pc] s t)

/-- `5xy0` and `9xy0`: skip the next word iff V[x] = V[y], iff V[x] != V[y] (40_flow.md section on `5xy0` and `9xy0`; that
only the low digit 0 is these instructions is D8, log 11). -/
def Obligations.SkipOnRegisters : Prop :=
  ∀ (x y : Reg) (s : State),
    (∃ t, exec (.seReg x y) s = .next t ∧ t.pc = s.pc + (if s.reg x = s.reg y then 4 else 2) ∧ KeepsAllBut [.pc] s t) ∧
    (∃ t, exec (.sneReg x y) s = .next t ∧ t.pc = s.pc + (if s.reg x = s.reg y then 2 else 4) ∧ KeepsAllBut [.pc] s t)

/-- `2nnn` with a free slot: the address after the call goes to STACK[SP], SP goes up by 1, pc <- nnn, every other slot is
kept (40_flow.md section on `2nnn`; that SP = 15 still completes is D3, log 4). -/
def Obligations.CallPushesReturnAddress : Prop :=
  ∀ (nnn : BitVec 12) (s : State), s.sp.toNat < 16 → ∃ t, exec (.call nnn) s = .next t ∧
    t.sp.toNat = s.sp.toNat + 1 ∧ t.pc.toNat = nnn.toNat ∧
    (∀ k : Fin 16, t.stack[k] = if k.val = s.sp.toNat then s.pc + 2 else s.stack[k]) ∧ KeepsAllBut [.pc, .stack] s t

/-- `00EE` with SP from 1 to 16: SP goes down by 1, pc takes the slot SP then names, no slot is cleared (40_flow.md
section on `00EE`; the range of SP is D3, log 4). -/
def Obligations.ReturnPopsAddress : Prop :=
  ∀ (s : State) (k : Fin 16), s.sp.toNat = k.val + 1 → ∃ t, exec .ret s = .next t ∧
    t.sp.toNat = k.val ∧ t.pc = s.stack[k] ∧ (∀ j : Fin 16, t.stack[j] = s.stack[j]) ∧ KeepsAllBut [.pc, .stack] s t

/-- A call followed by a return comes back to the word after the call with SP as before (40_flow.md sections on `2nnn`
and `00EE`). -/
def Obligations.ReturnUndoesCall : Prop :=
  ∀ (nnn : BitVec 12) (s : State), s.sp.toNat < 16 → ∃ t u, exec (.call nnn) s = .next t ∧ exec .ret t = .next u ∧
    u.pc = s.pc + 2 ∧ u.sp = s.sp ∧ KeepsAllBut [.pc, .stack] s u

/-- A word that matches no pattern moves PC to PC + 2 and changes nothing else (30_encoding.md section 5; which words
these are is D8, log 11). -/
def Obligations.NoOpOnlyAdvances : Prop :=
  (∀ (w : Word) (s : State), ∃ t, exec (.nop w) s = .next t ∧ t.pc = s.pc + 2 ∧ KeepsAllBut [.pc] s t) ∧
    ∀ s : State, CanFetch s → (∀ p ∈ patterns, p.fits (wordAt s s.pc.toNat) = false) →
      step s = .next { s with pc := s.pc + 2 }

/-! ## Index register and memory -/

/-- `Annn`, `Fx1E`, `Fx29`: what I becomes; no flag, no fault (42_index_memory.md R171, R172, R173). -/
def Obligations.IndexRegisterWrites : Prop :=
  (∀ nnn : BitVec 12, decode (BitVec.ofNat 16 (0xA000 + nnn.toNat)) = .ldI nnn ∧
    ∀ s : State, ∃ t, exec (.ldI nnn) s = .next t ∧ t.i.toNat = nnn.toNat ∧ t.pc = s.pc + 2 ∧
      KeepsAllBut [.index, .pc] s t) ∧
  (∀ x : Reg, decode (BitVec.ofNat 16 (0xF01E + x.val * 256)) = .addI x ∧
    ∀ s : State, ∃ t, exec (.addI x) s = .next t ∧ t.i.toNat = (s.i.toNat + (s.reg x).toNat) % 65536 ∧
      t.pc = s.pc + 2 ∧ KeepsAllBut [.index, .pc] s t) ∧
  (∀ x : Reg, decode (BitVec.ofNat 16 (0xF029 + x.val * 256)) = .ldF x ∧
    ∀ s : State, ∃ t, exec (.ldF x) s = .next t ∧ t.i.toNat = (s.reg x).toNat % 16 * 5 ∧ t.pc = s.pc + 2 ∧
      KeepsAllBut [.index, .pc] s t)

/-- `Fx33` where the three bytes at I can be stored: hundreds, tens, ones at I, I + 1, I + 2, each at most 9, together
V[x]; every other byte and I unchanged (42_index_memory.md section on `Fx33`; the bounds are D2 and D4, log 2, log 3; I kept
is D15, log 17). -/
def Obligations.BcdStoresThreeDigits : Prop :=
  ∀ (x : Reg) (s : State), s.mem.wf → 0x200 ≤ s.i.toNat → s.i.toNat + 2 ≤ 0xFFF →
    ∃ t, exec (.ldB x) s = .next t ∧
      (t.mem.read s.i.toNat).toNat * 100 + (t.mem.read (s.i.toNat + 1)).toNat * 10 + (t.mem.read (s.i.toNat + 2)).toNat
        = (s.reg x).toNat ∧
      (∀ k < 3, (t.mem.read (s.i.toNat + k)).toNat ≤ 9) ∧
      (∀ a : Nat, a < s.i.toNat ∨ s.i.toNat + 3 ≤ a → t.mem.read a = s.mem.read a) ∧
      t.pc = s.pc + 2 ∧ KeepsAllBut [.memory, .pc] s t

/-- `Fx55` where V[0] to V[x] can be stored at I: byte I + k is V[k], every other byte, I and every register unchanged
(42_index_memory.md section on `Fx55`; D2, D4, D15; log 2, log 3, log 17). -/
def Obligations.StoreRegistersAtIndex : Prop :=
  ∀ (x : Reg) (s : State), s.mem.wf → 0x200 ≤ s.i.toNat → s.i.toNat + x.val ≤ 0xFFF →
    ∃ t, exec (.stRegs x) s = .next t ∧
      (∀ k : Reg, k ≤ x → t.mem.read (s.i.toNat + k.val) = s.reg k) ∧
      (∀ a : Nat, a < s.i.toNat ∨ s.i.toNat + x.val < a → t.mem.read a = s.mem.read a) ∧
      t.pc = s.pc + 2 ∧ KeepsAllBut [.memory, .pc] s t

/-- `Fx65` where I to I + x can be read: V[k] is byte I + k for k up to x, the registers above x, memory and I unchanged
(42_index_memory.md section on `Fx65`; D2, D15; log 2, log 17). -/
def Obligations.LoadRegistersFromIndex : Prop :=
  ∀ (x : Reg) (s : State), s.i.toNat + x.val ≤ 0xFFF →
    ∃ t, exec (.ldRegs x) s = .next t ∧
      (∀ k : Reg, t.reg k = if k ≤ x then s.mem.read (s.i.toNat + k.val) else s.reg k) ∧
      t.pc = s.pc + 2 ∧ KeepsAllBut [.regs, .pc] s t

/-- Storing a block and loading it back leaves the registers as they were (42_index_memory.md sections on `Fx55` and
`Fx65`). -/
def Obligations.LoadAfterStoreKeepsRegisters : Prop :=
  ∀ (x : Reg) (s : State), s.mem.wf → 0x200 ≤ s.i.toNat → s.i.toNat + x.val ≤ 0xFFF →
    ∃ t u, exec (.stRegs x) s = .next t ∧ exec (.ldRegs x) t = .next u ∧ ∀ r : Reg, u.reg r = s.reg r

/-- `Fx29` followed by `F465` loads the five bytes of the digit's glyph, in every state whose low memory is as reset left
it (42_index_memory.md, the rule on `Fx29`, 10_state.md section 10). -/
def Obligations.GlyphOfDigitIsLoaded : Prop :=
  ∀ (x : Reg) (s : State), Invariant s → ∃ t u, exec (.ldF x) s = .next t ∧ exec (.ldRegs 4) t = .next u ∧
    ∀ k : Fin 5, ∃ h : (s.reg x).toNat % 16 * 5 + k.val < 80,
      u.reg ⟨k.val, by omega⟩ = Config.glyph[(s.reg x).toNat % 16 * 5 + k.val]

/-- A store is seen by the next fetch: where `Fx55` overwrites the word that follows it with V[j] and V[j + 1], the next
step runs that word (20_memory.md section 8). -/
def Obligations.StoredCodeRunsNext : Prop :=
  ∀ (x j : Reg) (s : State) (hj : j.val < x.val), s.mem.wf → s.fault = none → 0x200 ≤ s.i.toNat →
    s.i.toNat + x.val ≤ 0xFFF → s.pc.toNat + 2 = s.i.toNat + j.val →
      ∃ t, exec (.stRegs x) s = .next t ∧
        step t = exec (decode (wordOfBytes (s.reg j) (s.reg ⟨j.val + 1, by omega⟩))) t

/-! ## Display -/

/-- `00E0`: every pixel 0, DRAWF 1, VF and all else untouched (43_display.md R191). -/
def Obligations.ClearScreen : Prop :=
  decode 0x00E0#16 = .cls ∧ ∀ s : State, ∃ t, exec .cls s = .next t ∧
    (∀ row col : Nat, pixel t.fb row col = false) ∧ t.drawF = true ∧ t.pc = s.pc + 2 ∧
    KeepsAllBut [.framebuffer, .drawFlag, .pc] s t

/-- `Dxyn` where every row that is drawn can be read: each pixel is XORed with the sprite bit on it, clipped at the right
and bottom edges; VF is 1 iff a 1 bit met a set pixel, else 0; DRAWF is set; the coordinates are the old V[x] and V[y]
(43_display.md sections on `Dxyn`; D2, D12, D13, D14; log 2, log 14, log 15, log 16). -/
def Obligations.DrawXorsSpriteOntoScreen : Prop :=
  ∀ (x y : Reg) (n : Fin 16) (s : State),
    let x0 := (s.reg x).toNat % 64
    let y0 := (s.reg y).toNat % 32
    let rows := min n.val (32 - y0)
    let bit := spriteBit s.mem s.i.toNat x0 y0 rows
    s.i.toNat + rows ≤ 0x1000 ∨ rows = 0 →
      ∃ t, exec (.drw x y n) s = .next t ∧
        (∀ row col : Nat, pixel t.fb row col = (pixel s.fb row col != bit row col)) ∧
        (t.reg 15 = 0#8 ∨ t.reg 15 = 1#8) ∧
        (t.reg 15 = 1#8 ↔ ∃ row col : Nat, bit row col = true ∧ pixel s.fb row col = true) ∧
        t.drawF = true ∧ KeepsRegsBut 15 s t ∧ t.pc = s.pc + 2 ∧
        KeepsAllBut [.regs, .framebuffer, .drawFlag, .pc] s t

/-- Drawing the same sprite twice at the same coordinates restores the framebuffer, and the second draw collides iff some
1 bit fell on a pixel that was 0 before the first (43_display.md section on `Dxyn`, testable properties). -/
def Obligations.DrawTwiceRestoresScreen : Prop :=
  ∀ (x y : Reg) (n : Fin 16) (s : State), x ≠ 15 → y ≠ 15 →
    let x0 := (s.reg x).toNat % 64
    let y0 := (s.reg y).toNat % 32
    let rows := min n.val (32 - y0)
    let bit := spriteBit s.mem s.i.toNat x0 y0 rows
    s.i.toNat + rows ≤ 0x1000 ∨ rows = 0 →
      ∃ t u, exec (.drw x y n) s = .next t ∧ exec (.drw x y n) t = .next u ∧
        (∀ row col : Nat, pixel u.fb row col = pixel s.fb row col) ∧
        (u.reg 15 = 1#8 ↔ ∃ row col : Nat, bit row col = true ∧ pixel s.fb row col = false)

/-! ## Timers and keys -/

/-- `Fx07`, `Fx15`, `Fx18` (44_timers_keys.md R211, R212, R213). -/
def Obligations.TimerLoads : Prop :=
  ∀ x : Reg,
    decode (BitVec.ofNat 16 (0xF007 + x.val * 256)) = .ldVxDt x ∧
    decode (BitVec.ofNat 16 (0xF015 + x.val * 256)) = .ldDtVx x ∧
    decode (BitVec.ofNat 16 (0xF018 + x.val * 256)) = .ldStVx x ∧
    ∀ s : State,
      (∃ t, exec (.ldVxDt x) s = .next t ∧ t.reg x = s.dt ∧ KeepsRegsBut x s t ∧ t.pc = s.pc + 2 ∧
        KeepsAllBut [.regs, .pc] s t) ∧
      (∃ t, exec (.ldDtVx x) s = .next t ∧ t.dt = s.reg x ∧ t.pc = s.pc + 2 ∧ KeepsAllBut [.delayTimer, .pc] s t) ∧
      (∃ t, exec (.ldStVx x) s = .next t ∧ t.st = s.reg x ∧ t.pc = s.pc + 2 ∧ KeepsAllBut [.soundTimer, .pc] s t)

/-- `Ex9E` and `ExA1`: skip iff the key of the low nibble of V[x] is held, iff it is not (44_timers_keys.md R214, R215). -/
def Obligations.SkipOnKey : Prop :=
  ∀ x : Reg,
    decode (BitVec.ofNat 16 (0xE09E + x.val * 256)) = .skp x ∧
    decode (BitVec.ofNat 16 (0xE0A1 + x.val * 256)) = .sknp x ∧
    ∀ (s : State) (k : Fin 16), k.val = (s.reg x).toNat % 16 →
      (∃ t, exec (.skp x) s = .next t ∧ t.pc = s.pc + (if s.key[k] then 4 else 2) ∧ KeepsAllBut [.pc] s t) ∧
      (∃ t, exec (.sknp x) s = .next t ∧ t.pc = s.pc + (if s.key[k] then 2 else 4) ∧ KeepsAllBut [.pc] s t)

/-- `Fx0A` with no key held changes no state; with keys held V[x] takes the least held index (44_timers_keys.md section on
`Fx0A`; the destination V[x] is D16, log 18). -/
def Obligations.WaitForKeyTakesLowestHeld : Prop :=
  ∀ (x : Reg) (s : State),
    ((∀ k : Fin 16, s.key[k] = false) → exec (.ldVxK x) s = .next s) ∧
      ∀ k : Fin 16, s.key[k] = true → (∀ j : Fin 16, j < k → s.key[j] = false) →
        ∃ t, exec (.ldVxK x) s = .next t ∧ (t.reg x).toNat = k.val ∧ KeepsRegsBut x s t ∧ t.pc = s.pc + 2 ∧
          KeepsAllBut [.regs, .pc] s t

/-! ## The host's events -/

/-- n ticks take both timers down by n, floor 0, and change nothing else (60_exceptions.md section 8; that one event ticks
both is D19, log 19). -/
def Obligations.TicksCountDownToZero : Prop :=
  ∀ (n : Nat) (s : State), ∃ t, runEvents (List.replicate n .tickTimers) s = .next t ∧
    t.dt.toNat = s.dt.toNat - n ∧ t.st.toNat = s.st.toNat - n ∧ KeepsAllBut [.delayTimer, .soundTimer] s t

/-- `SetKey`: an index from 0 to 15 sets that key and no other, any other index changes nothing (60_exceptions.md R246). -/
def Obligations.SetKeySetsOneKey : Prop :=
  ∀ (index : Int) (held : Bool) (s : State),
    (∀ k : Fin 16, index = k.val → ∃ t, applyEvent (.setKey index held) s = .next t ∧
      (∀ j : Fin 16, t.key[j] = if j = k then held else s.key[j]) ∧ KeepsAllBut [.keys] s t) ∧
    (index < 0 ∨ index ≥ 16 → applyEvent (.setKey index held) s = .next s)

/-- `GetPixel` returns FB[y][x], false for any out-of-range coordinate, and changes no state (43_display.md R197). -/
def Obligations.GetPixelIsTotalAndReadOnly : Prop :=
  ∀ (x y : Int) (s : State), applyEvent (.getPixel x y) s = .next s ∧
    (∀ (col : Fin 64) (row : Fin 32), x = col.val → y = row.val →
      eventReply (.getPixel x y) s = .bit (pixel s.fb row col)) ∧
    (x < 0 ∨ x ≥ 64 ∨ y < 0 ∨ y ≥ 32 → eventReply (.getPixel x y) s = .bit false)

/-- `ClearDrawFlag` clears DRAWF and nothing else; `ReadDrawFlag` returns it and changes nothing; a `00E0`, and a `Dxyn`
whose rows can be read, after the clear sets it again (43_display.md sections on the events; that reading does not clear
is D27, log 21; where `Dxyn` faults is D2 and D14, log 2, log 16). -/
def Obligations.DrawFlagEvents : Prop :=
  ∀ s : State,
    (∃ t, applyEvent .clearDrawFlag s = .next t ∧ t.drawF = false ∧ KeepsAllBut [.drawFlag] s t ∧
      (∃ u, exec .cls t = .next u ∧ u.drawF = true) ∧
      ∀ (x y : Reg) (n : Fin 16),
        let rows := min n.val (32 - (t.reg y).toNat % 32)
        t.i.toNat + rows ≤ 0x1000 ∨ rows = 0 → ∃ u, exec (.drw x y n) t = .next u ∧ u.drawF = true) ∧
    applyEvent .readDrawFlag s = .next s ∧ eventReply .readDrawFlag s = .bit s.drawF

/-- `Load` of at most 3584 bytes answers ok, copies them to 0x200 up and changes nothing else; a longer image answers
TooLarge and changes nothing; NotFound and Unreadable never come from the core (70_reset_and_hazards.md R273, R274). -/
def Obligations.LoadCopiesImageOrRefusesWhole : Prop :=
  ∀ (bytes : List Byte) (s : State), s.mem.wf →
    (bytes.length ≤ 3584 → eventReply (.load bytes) s = .loaded none ∧ ∃ t, applyEvent (.load bytes) s = .next t ∧
      (∀ (k : Nat) (h : k < bytes.length), t.mem.read (0x200 + k) = bytes[k]) ∧
      (∀ a : Nat, a < 0x200 ∨ 0x200 + bytes.length ≤ a → t.mem.read a = s.mem.read a) ∧ KeepsAllBut [.memory] s t) ∧
    (bytes.length > 3584 → eventReply (.load bytes) s = .loaded (some .tooLarge) ∧
      applyEvent (.load bytes) s = .next s)

/-- `Initialize` gives the reset state from any state, a faulted one included; only the model's draw counter goes on
(70_reset_and_hazards.md section 1; the zeros are D7, log 7; the counter is the model's choice, log 10). -/
def Obligations.InitializeGivesResetState : Prop :=
  ∀ s : State, applyEvent .reset s = .next { State.reset with draws := s.draws }

/-- Once a program has ended in a jump to itself it stays ended: steps change nothing at all, and ticks, keys and reads
keep it ended (70_reset_and_hazards.md section 5; the definition of the end is D24, log 24). -/
def Obligations.EndedProgramStaysEnded : Prop :=
  ∀ s : State, Ended s → step s = .next s ∧
    ∀ e : Event, e ≠ .reset → (∀ bytes, e ≠ .load bytes) → ∃ t, applyEvent e s = .next t ∧ Ended t
end

