-- ==== Sys2Proof/Laws/Encoding.lean ====
section
/-! SUPPORT. The fields of a word and the words of the formats as numbers (30_encoding.md R92, R103), so that facts about
the encoding are arithmetic. -/

namespace Sys2Proof

theorem word_lt (w : Word) : w.toNat < 65536 := w.isLt

theorem opField_eq (w : Word) : opField w = w.toNat / 4096 := by
  have := word_lt w
  simp only [opField, BitVec.extractLsb'_toNat, Nat.shiftRight_eq_div_pow]
  omega

theorem xField_val (w : Word) : (xField w).val = w.toNat / 256 % 16 := by
  show (w.extractLsb' 8 4).toNat = _
  simp only [BitVec.extractLsb'_toNat, Nat.shiftRight_eq_div_pow]

theorem yField_val (w : Word) : (yField w).val = w.toNat / 16 % 16 := by
  show (w.extractLsb' 4 4).toNat = _
  simp only [BitVec.extractLsb'_toNat, Nat.shiftRight_eq_div_pow]

theorem nField_val (w : Word) : (nField w).val = w.toNat % 16 := by
  show (w.extractLsb' 0 4).toNat = _
  simp only [BitVec.extractLsb'_toNat, Nat.shiftRight_eq_div_pow]
  omega

theorem kkField_toNat (w : Word) : (kkField w).toNat = w.toNat % 256 := by
  simp only [kkField, BitVec.extractLsb'_toNat, Nat.shiftRight_eq_div_pow]
  omega

theorem nnnField_toNat (w : Word) : (nnnField w).toNat = w.toNat % 4096 := by
  simp only [nnnField, BitVec.extractLsb'_toNat, Nat.shiftRight_eq_div_pow]
  omega

theorem wordNNN_toNat {op : Nat} (h : op < 16) (nnn : BitVec 12) : (wordNNN op nnn).toNat = op * 4096 + nnn.toNat := by
  have := nnn.isLt
  simp only [wordNNN, BitVec.toNat_ofNat]
  omega

theorem wordXKK_toNat {op : Nat} (h : op < 16) (x : Reg) (kk : Byte) :
    (wordXKK op x kk).toNat = op * 4096 + x.val * 256 + kk.toNat := by
  have := kk.isLt
  have := x.isLt
  simp only [wordXKK, BitVec.toNat_ofNat]
  omega

theorem wordXYN_toNat {op : Nat} (h : op < 16) (x y : Reg) (n : Fin 16) :
    (wordXYN op x y n).toNat = op * 4096 + x.val * 256 + y.val * 16 + n.val := by
  have := n.isLt
  have := x.isLt
  have := y.isLt
  simp only [wordXYN, BitVec.toNat_ofNat]
  omega

/-- A word from two bytes as a number: big-endian (20_memory.md R63). -/
theorem wordOfBytes_toNat (hi lo : Byte) : (wordOfBytes hi lo).toNat = hi.toNat * 256 + lo.toNat := by
  have := hi.isLt
  have := lo.isLt
  simp only [wordOfBytes, BitVec.toNat_ofNat]
  omega

/-- The two bytes of a word give the word back. -/
theorem wordOfBytes_bytes (w : Word) : wordOfBytes (highByte w) (lowByte w) = w := by
  have := word_lt w
  apply BitVec.eq_of_toNat_eq
  rw [wordOfBytes_toNat]
  simp only [highByte, lowByte, BitVec.extractLsb'_toNat, Nat.shiftRight_eq_div_pow]
  omega

end Sys2Proof
end

