-- ==== Sys2Proof/Laws/Memory.lean ====
section
/-! SUPPORT. The laws of memory: read after write, and that every memory operation keeps the canonical form. -/

namespace Sys2Proof.Machine

theorem cellsRead_consCell (a : Nat) (u : Byte) (rest : List Host.Cell) (c : Nat) (h : c ≠ a) :
    cellsRead (consCell a u rest) c = cellsRead rest c := by
  unfold consCell
  split
  · rfl
  · simp [cellsRead, h.symm]

/-- An address below all listed ones is unlisted. -/
theorem cellsRead_of_lt (l : List Host.Cell) (a : Nat) (h : ∀ c ∈ l, a < c.1) :
    cellsRead l a = Memory.background a := by
  induction l with
  | nil => rfl
  | cons c l ih =>
    have hc := h c (by simp)
    rw [cellsRead, if_neg (by omega), ih fun d hd => h d (by simp [hd])]

theorem cellsRead_consCell_self (a : Nat) (u : Byte) (rest : List Host.Cell) (h : ∀ c ∈ rest, a < c.1) :
    cellsRead (consCell a u rest) a = u := by
  unfold consCell
  split
  · rename_i hu
    rw [cellsRead_of_lt rest a h, hu]
  · simp [cellsRead]

theorem cellsRead_cellsWrite_other (l : List Host.Cell) (a c : Nat) (u : Byte) (h : c ≠ a) :
    cellsRead (cellsWrite l a u) c = cellsRead l c := by
  induction l with
  | nil => exact cellsRead_consCell a u [] c h
  | cons d l ih =>
    unfold cellsWrite
    split
    · exact cellsRead_consCell a u _ c h
    · split
      · rename_i hd
        rw [cellsRead_consCell a u _ c h, cellsRead, if_neg (by omega)]
      · simp only [cellsRead, ih]

theorem cellsRead_cellsWrite_self (l : List Host.Cell) (a : Nat) (u : Byte)
    (hl : l.Pairwise fun c d => c.1 < d.1) : cellsRead (cellsWrite l a u) a = u := by
  induction l with
  | nil => exact cellsRead_consCell_self a u [] (by simp)
  | cons d l ih =>
    obtain ⟨hd, hl⟩ := List.pairwise_cons.1 hl
    unfold cellsWrite
    split
    · refine cellsRead_consCell_self a u _ fun c hc => ?_
      rcases List.mem_cons.1 hc with rfl | hc
      · assumption
      · have := hd c hc
        omega
    · split
      · rename_i h
        exact cellsRead_consCell_self a u _ fun c hc => by
          have := hd c hc
          omega
      · simp only [cellsRead, if_neg (Ne.symm ‹¬a = d.1›), ih hl]

/-- Where the cells of a written list come from. -/
theorem mem_cellsWrite {l : List Host.Cell} {a : Nat} {u : Byte} {c : Host.Cell} (h : c ∈ cellsWrite l a u) :
    c ∈ l ∨ (c = (a, u) ∧ u ≠ Memory.background a) := by
  have cons : ∀ rest : List Host.Cell, c ∈ consCell a u rest →
      c ∈ rest ∨ (c = (a, u) ∧ u ≠ Memory.background a) := by
    intro rest hc
    unfold consCell at hc
    split at hc
    · exact .inl hc
    · rcases List.mem_cons.1 hc with hc | hc
      · exact .inr ⟨hc, ‹_›⟩
      · exact .inl hc
  induction l with
  | nil => exact cons [] h
  | cons d l ih =>
    unfold cellsWrite at h
    split at h
    · exact cons _ h
    · split at h
      · rcases cons _ h with h | h
        · exact .inl (by simp [h])
        · exact .inr h
      · rcases List.mem_cons.1 h with h | h
        · exact .inl (by simp [h])
        · rcases ih h with h | h
          · exact .inl (by simp [h])
          · exact .inr h

theorem consCell_sorted {a : Nat} {u : Byte} {rest : List Host.Cell} (h : ∀ c ∈ rest, a < c.1)
    (hr : rest.Pairwise fun c d => c.1 < d.1) : (consCell a u rest).Pairwise fun c d => c.1 < d.1 := by
  unfold consCell
  split
  · exact hr
  · exact List.pairwise_cons.2 ⟨h, hr⟩

theorem cellsWrite_sorted {l : List Host.Cell} (a : Nat) (u : Byte) (hl : l.Pairwise fun c d => c.1 < d.1) :
    (cellsWrite l a u).Pairwise fun c d => c.1 < d.1 := by
  induction l with
  | nil => exact consCell_sorted (by simp) List.Pairwise.nil
  | cons d l ih =>
    obtain ⟨hd, hl'⟩ := List.pairwise_cons.1 hl
    unfold cellsWrite
    split
    · refine consCell_sorted (fun c hc => ?_) hl
      rcases List.mem_cons.1 hc with rfl | hc
      · assumption
      · have := hd c hc
        omega
    · split
      · exact consCell_sorted (fun c hc => by have := hd c hc; omega) hl'
      · refine List.pairwise_cons.2 ⟨fun c hc => ?_, ih hl'⟩
        rcases mem_cellsWrite hc with hc | ⟨rfl, -⟩
        · exact hd c hc
        · show d.1 < a
          omega

/-- A read of another address does not see a write. -/
theorem Memory.read_write_other (m : Memory) {a c : Nat} (u : Byte) (h : c ≠ a) :
    (m.write a u).read c = m.read c := cellsRead_cellsWrite_other m.cells a c u h

/-- A read of the written address gives the written byte. -/
theorem Memory.read_write_self {m : Memory} (hm : m.wf) (a : Nat) (u : Byte) : (m.write a u).read a = u :=
  cellsRead_cellsWrite_self m.cells a u hm.1

/-- A write inside the address space keeps the canonical form. -/
theorem Memory.write_wf {m : Memory} (hm : m.wf) {a : Nat} (ha : a < 4096) (u : Byte) : (m.write a u).wf := by
  refine ⟨cellsWrite_sorted a u hm.1, fun c hc => ?_⟩
  rcases mem_cellsWrite hc with hc | ⟨rfl, hu⟩
  · exact hm.2 c hc
  · exact ⟨ha, hu⟩

/-- A read outside a written run does not see it. -/
theorem Memory.read_writeBytes_other (us : List Byte) (m : Memory) (a c : Nat) (h : c < a ∨ a + us.length ≤ c) :
    (m.writeBytes a us).read c = m.read c := by
  induction us generalizing m a with
  | nil => rfl
  | cons u us ih =>
    simp only [List.length_cons] at h
    rw [Memory.writeBytes, ih _ _ (by omega), Memory.read_write_other _ _ (by omega)]

/-- A written run inside the address space keeps the canonical form. -/
theorem Memory.writeBytes_wf (us : List Byte) {m : Memory} (hm : m.wf) (a : Nat) (h : a + us.length ≤ 4096) :
    (m.writeBytes a us).wf := by
  induction us generalizing m a with
  | nil => exact hm
  | cons u us ih =>
    simp only [List.length_cons] at h
    exact ih (Memory.write_wf hm (by omega) u) (a + 1) (by omega)

/-- A read inside a written run gives the run's byte. -/
theorem Memory.read_writeBytes_self (us : List Byte) {m : Memory} (hm : m.wf) (a k : Nat) (hk : k < us.length)
    (h : a + us.length ≤ 4096) : (m.writeBytes a us).read (a + k) = us[k] := by
  induction us generalizing m a k with
  | nil => simp at hk
  | cons u us ih =>
    simp only [List.length_cons] at h hk
    have hw := Memory.write_wf hm (a := a) (by omega) u
    cases k with
    | zero =>
      rw [Memory.writeBytes, Memory.read_writeBytes_other _ _ _ _ (by omega)]
      exact Memory.read_write_self hm a u
    | succ k =>
      have := ih hw (a + 1) k (by omega) (by omega)
      rw [Memory.writeBytes, show a + (k + 1) = a + 1 + k by omega, this, List.getElem_cons_succ]

end Sys2Proof.Machine
end

