-- ==== Sys2Proof/Laws/State.lean ====
section
/-! SUPPORT. One lemma per field per update of the state record, true by rfl, and the read of a register after a
register write, so that no later proof unfolds a record update. -/

namespace Sys2Proof.Machine

@[simp] theorem State.advance_v (s : State) : s.advance.v = s.v := rfl
@[simp] theorem State.advance_i (s : State) : s.advance.i = s.i := rfl
@[simp] theorem State.advance_pc (s : State) : s.advance.pc = s.pc + 2 := rfl
@[simp] theorem State.advance_sp (s : State) : s.advance.sp = s.sp := rfl
@[simp] theorem State.advance_stack (s : State) : s.advance.stack = s.stack := rfl
@[simp] theorem State.advance_dt (s : State) : s.advance.dt = s.dt := rfl
@[simp] theorem State.advance_st (s : State) : s.advance.st = s.st := rfl
@[simp] theorem State.advance_key (s : State) : s.advance.key = s.key := rfl
@[simp] theorem State.advance_fb (s : State) : s.advance.fb = s.fb := rfl
@[simp] theorem State.advance_drawF (s : State) : s.advance.drawF = s.drawF := rfl
@[simp] theorem State.advance_mem (s : State) : s.advance.mem = s.mem := rfl
@[simp] theorem State.advance_fault (s : State) : s.advance.fault = s.fault := rfl
@[simp] theorem State.advance_draws (s : State) : s.advance.draws = s.draws := rfl

@[simp] theorem State.setReg_v (s : State) (r : Reg) (b : Byte) : (s.setReg r b).v = s.v.set r b := rfl
@[simp] theorem State.setReg_i (s : State) (r : Reg) (b : Byte) : (s.setReg r b).i = s.i := rfl
@[simp] theorem State.setReg_pc (s : State) (r : Reg) (b : Byte) : (s.setReg r b).pc = s.pc := rfl
@[simp] theorem State.setReg_sp (s : State) (r : Reg) (b : Byte) : (s.setReg r b).sp = s.sp := rfl
@[simp] theorem State.setReg_stack (s : State) (r : Reg) (b : Byte) : (s.setReg r b).stack = s.stack := rfl
@[simp] theorem State.setReg_dt (s : State) (r : Reg) (b : Byte) : (s.setReg r b).dt = s.dt := rfl
@[simp] theorem State.setReg_st (s : State) (r : Reg) (b : Byte) : (s.setReg r b).st = s.st := rfl
@[simp] theorem State.setReg_key (s : State) (r : Reg) (b : Byte) : (s.setReg r b).key = s.key := rfl
@[simp] theorem State.setReg_fb (s : State) (r : Reg) (b : Byte) : (s.setReg r b).fb = s.fb := rfl
@[simp] theorem State.setReg_drawF (s : State) (r : Reg) (b : Byte) : (s.setReg r b).drawF = s.drawF := rfl
@[simp] theorem State.setReg_mem (s : State) (r : Reg) (b : Byte) : (s.setReg r b).mem = s.mem := rfl
@[simp] theorem State.setReg_fault (s : State) (r : Reg) (b : Byte) : (s.setReg r b).fault = s.fault := rfl
@[simp] theorem State.setReg_draws (s : State) (r : Reg) (b : Byte) : (s.setReg r b).draws = s.draws := rfl

@[simp] theorem State.jump_v (s : State) (a : Word) : (s.jump a).v = s.v := rfl
@[simp] theorem State.jump_i (s : State) (a : Word) : (s.jump a).i = s.i := rfl
@[simp] theorem State.jump_pc (s : State) (a : Word) : (s.jump a).pc = a := rfl
@[simp] theorem State.jump_sp (s : State) (a : Word) : (s.jump a).sp = s.sp := rfl
@[simp] theorem State.jump_stack (s : State) (a : Word) : (s.jump a).stack = s.stack := rfl
@[simp] theorem State.jump_dt (s : State) (a : Word) : (s.jump a).dt = s.dt := rfl
@[simp] theorem State.jump_st (s : State) (a : Word) : (s.jump a).st = s.st := rfl
@[simp] theorem State.jump_key (s : State) (a : Word) : (s.jump a).key = s.key := rfl
@[simp] theorem State.jump_fb (s : State) (a : Word) : (s.jump a).fb = s.fb := rfl
@[simp] theorem State.jump_drawF (s : State) (a : Word) : (s.jump a).drawF = s.drawF := rfl
@[simp] theorem State.jump_mem (s : State) (a : Word) : (s.jump a).mem = s.mem := rfl
@[simp] theorem State.jump_fault (s : State) (a : Word) : (s.jump a).fault = s.fault := rfl
@[simp] theorem State.jump_draws (s : State) (a : Word) : (s.jump a).draws = s.draws := rfl

@[simp] theorem State.setI_v (s : State) (a : Word) : (s.setI a).v = s.v := rfl
@[simp] theorem State.setI_i (s : State) (a : Word) : (s.setI a).i = a := rfl
@[simp] theorem State.setI_pc (s : State) (a : Word) : (s.setI a).pc = s.pc := rfl
@[simp] theorem State.setI_sp (s : State) (a : Word) : (s.setI a).sp = s.sp := rfl
@[simp] theorem State.setI_stack (s : State) (a : Word) : (s.setI a).stack = s.stack := rfl
@[simp] theorem State.setI_dt (s : State) (a : Word) : (s.setI a).dt = s.dt := rfl
@[simp] theorem State.setI_st (s : State) (a : Word) : (s.setI a).st = s.st := rfl
@[simp] theorem State.setI_key (s : State) (a : Word) : (s.setI a).key = s.key := rfl
@[simp] theorem State.setI_fb (s : State) (a : Word) : (s.setI a).fb = s.fb := rfl
@[simp] theorem State.setI_drawF (s : State) (a : Word) : (s.setI a).drawF = s.drawF := rfl
@[simp] theorem State.setI_mem (s : State) (a : Word) : (s.setI a).mem = s.mem := rfl
@[simp] theorem State.setI_fault (s : State) (a : Word) : (s.setI a).fault = s.fault := rfl
@[simp] theorem State.setI_draws (s : State) (a : Word) : (s.setI a).draws = s.draws := rfl

@[simp] theorem State.raiseFault_v (s : State) (t : Trap) (w : Option Word) : (s.raiseFault t w).v = s.v := rfl
@[simp] theorem State.raiseFault_i (s : State) (t : Trap) (w : Option Word) : (s.raiseFault t w).i = s.i := rfl
@[simp] theorem State.raiseFault_pc (s : State) (t : Trap) (w : Option Word) : (s.raiseFault t w).pc = s.pc := rfl
@[simp] theorem State.raiseFault_sp (s : State) (t : Trap) (w : Option Word) : (s.raiseFault t w).sp = s.sp := rfl
@[simp] theorem State.raiseFault_stack (s : State) (t : Trap) (w : Option Word) : (s.raiseFault t w).stack = s.stack := rfl
@[simp] theorem State.raiseFault_dt (s : State) (t : Trap) (w : Option Word) : (s.raiseFault t w).dt = s.dt := rfl
@[simp] theorem State.raiseFault_st (s : State) (t : Trap) (w : Option Word) : (s.raiseFault t w).st = s.st := rfl
@[simp] theorem State.raiseFault_key (s : State) (t : Trap) (w : Option Word) : (s.raiseFault t w).key = s.key := rfl
@[simp] theorem State.raiseFault_fb (s : State) (t : Trap) (w : Option Word) : (s.raiseFault t w).fb = s.fb := rfl
@[simp] theorem State.raiseFault_drawF (s : State) (t : Trap) (w : Option Word) : (s.raiseFault t w).drawF = s.drawF := rfl
@[simp] theorem State.raiseFault_mem (s : State) (t : Trap) (w : Option Word) : (s.raiseFault t w).mem = s.mem := rfl
@[simp] theorem State.raiseFault_fault (s : State) (t : Trap) (w : Option Word) : (s.raiseFault t w).fault = some { cause := t.cause, pc := s.pc, opcode := w, info := t.info } := rfl
@[simp] theorem State.raiseFault_draws (s : State) (t : Trap) (w : Option Word) : (s.raiseFault t w).draws = s.draws := rfl

/-- A register read after a register write. -/
@[simp] theorem State.reg_setReg (s : State) (x r : Reg) (b : Byte) :
    (s.setReg x b).reg r = if r = x then b else s.reg r := by
  simp only [State.reg, State.setReg, Fin.getElem_fin, Vector.getElem_set, Fin.val_inj, eq_comm]

/-- A register's value depends on the V file alone. -/
theorem State.reg_congr {s t : State} (h : t.v = s.v) (r : Reg) : t.reg r = s.reg r := by
  simp [State.reg, h]

@[simp] theorem State.advance_reg (s : State) (r : Reg) : s.advance.reg r = s.reg r := rfl

@[simp] theorem State.jump_reg (s : State) (a : Word) (r : Reg) : (s.jump a).reg r = s.reg r := rfl

@[simp] theorem State.setI_reg (s : State) (a : Word) (r : Reg) : (s.setI a).reg r = s.reg r := rfl

@[simp] theorem State.raiseFault_reg (s : State) (t : Trap) (w : Option Word) (r : Reg) :
    (s.raiseFault t w).reg r = s.reg r := rfl

/-- What the flag-writing instructions leave in the V file: the flag wins where x = 15 (41_alu.md R144). -/
theorem State.reg_setResultAndFlag (s : State) (x r : Reg) (b : Byte) (f : Bool) :
    (s.setResultAndFlag x b f).reg r = if r = flagReg then flagByte f else if r = x then b else s.reg r := by
  simp [State.setResultAndFlag]

end Sys2Proof.Machine
end

