-- ==== Sys2Proof/Laws/Ops.lean ====
section
/-! SUPPORT. One lemma per shared operation that says everything it can do: the checks in closed form, how a faulting
instruction ends, the fetch and the placing of a word. -/

namespace Sys2Proof.Machine

/-- The read check of a run of bytes: it traps iff the run is not empty and its last byte lies above 0xFFF, and reports
the lowest address above memory (20_memory.md R69, R77). -/
theorem firstTrap_read (n a : Nat) :
    firstTrap readTrap a n = if n ≥ 1 ∧ a + n > 0x1000 then some ⟨.memRange, max a 0x1000⟩ else none := by
  induction n generalizing a with
  | zero => rfl
  | succ n ih =>
    by_cases h : a > 0xFFF
    · simp only [firstTrap, readTrap, h, if_true]
      rw [if_pos (by omega), Nat.max_eq_left (by omega)]
    · have h0 : readTrap a = none := if_neg h
      simp only [firstTrap, h0]
      rw [ih]
      by_cases h2 : n ≥ 1 ∧ a + 1 + n > 0x1000
      · rw [if_pos h2, if_pos (by omega), Nat.max_eq_right (by omega), Nat.max_eq_right (by omega)]
      · rw [if_neg h2, if_neg (by omega)]

/-- The write check of a run of bytes: the low guard decides first (20_memory.md R67, R69, R77). -/
theorem firstTrap_write (n a : Nat) :
    firstTrap writeTrap a n =
      if n = 0 then none
      else if a < 0x200 then some ⟨.lowWrite, a⟩
      else if a + n > 0x1000 then some ⟨.memRange, max a 0x1000⟩ else none := by
  have high : ∀ (n a : Nat), a ≥ 0x200 → firstTrap writeTrap a n = firstTrap readTrap a n := by
    intro n
    induction n with
    | zero => intros; rfl
    | succ n ih =>
      intro a ha
      have hw : writeTrap a = readTrap a := if_neg (by omega)
      simp only [firstTrap, hw, ih (a + 1) (by omega)]
  cases n with
  | zero => rfl
  | succ n =>
    by_cases ha : a < 0x200
    · simp [firstTrap, writeTrap, ha]
    · rw [high _ _ (by omega), firstTrap_read, if_neg (Nat.succ_ne_zero n), if_neg ha]
      by_cases h : a + (n + 1) > 0x1000
      · rw [if_pos ⟨by omega, h⟩, if_pos h]
      · rw [if_neg (fun h' => h h'.2), if_neg h]

/-- An instruction that can fault always answers a next state: its effect, or the state before with the latch set. -/
theorem completeOrTrap_eq (ins : Instr) (t : Option Trap) (s done : State) :
    completeOrTrap ins t s done = .next (match t with
      | none => done
      | some t => s.raiseFault t (some (encode ins))) := rfl

@[simp] theorem completeOrTrap_none (ins : Instr) (s done : State) :
    completeOrTrap ins none s done = .next done := rfl

@[simp] theorem completeOrTrap_some (ins : Instr) (t : Trap) (s done : State) :
    completeOrTrap ins (some t) s done = .next (s.raiseFault t (some (encode ins))) := rfl

/-- The fetch: the big-endian word where both bytes exist, else the trap at the lowest address above memory
(20_memory.md R64). -/
theorem fetchWord_eq (m : Memory) (a : Nat) :
    fetchWord m a = if a ≤ 0xFFE then .ok (wordOfBytes (m.read a) (m.read (a + 1)))
      else .error ⟨.memRange, max a 0x1000⟩ := by
  unfold fetchWord
  split
  · rw [if_neg (by omega), Nat.max_eq_left (by omega)]
  · split
    · rw [if_neg (by omega), Nat.max_eq_right (by omega)]
      congr 2
      omega
    · rw [if_pos (by omega)]

/-- A halted core ends the step at once. -/
theorem fetchStage_halted {s : State} (h : s.fault ≠ none) : fetchStage s = .ended s := by
  have : s.halted = true := by simpa [State.halted, Option.isSome_iff_ne_none] using h
  simp [fetchStage, this]

/-- The front of a step of a running core. -/
theorem fetchStage_running {s : State} (h : s.fault = none) :
    fetchStage s = if s.pc.toNat ≤ 0xFFE then .word (wordOfBytes (s.mem.read s.pc.toNat) (s.mem.read (s.pc.toNat + 1)))
      else .ended (s.raiseFault ⟨.memRange, max s.pc.toNat 0x1000⟩ none) := by
  have : s.halted = false := by simp [State.halted, h]
  rw [fetchStage, this, fetchWord_eq]
  by_cases hp : s.pc.toNat ≤ 0xFFE
  · simp [hp]
  · simp [hp]

/-- A placed word is what the next step fetches. -/
theorem fetchStage_placeWord {s : State} (hm : s.mem.wf) (w : Word) : fetchStage (placeWord s w) = .word w := by
  have ha : (fetchAddress s).toNat ≤ 0xFFE := by
    unfold fetchAddress
    split
    · omega
    · decide
  have h0 := Memory.read_writeBytes_self [highByte w, lowByte w] hm (fetchAddress s).toNat 0 (by simp) (by simp; omega)
  have h1 := Memory.read_writeBytes_self [highByte w, lowByte w] hm (fetchAddress s).toNat 1 (by simp) (by simp; omega)
  rw [fetchStage_running (by rfl)]
  simp only [placeWord, ha, if_true]
  simp only [Nat.add_zero, List.getElem_cons_zero, List.getElem_cons_succ] at h0 h1
  rw [h0, h1, wordOfBytes_bytes]

end Sys2Proof.Machine
end

