-- ==== Sys2Proof/Laws/Operands.lean ====
section
/-! SUPPORT. The operand forms, results and flags as numbers (30_encoding.md R94, 41_alu.md R140). -/

namespace Sys2Proof.Machine

@[simp] theorem addressOf_toNat (nnn : BitVec 12) : (addressOf nnn).toNat = nnn.toNat := by
  have := nnn.isLt
  simp only [addressOf, BitVec.toNat_setWidth]
  omega

theorem keyNumber_val (b : Byte) : (keyNumber b).val = b.toNat % 16 := by
  show (b.extractLsb' 0 4).toNat = _
  simp only [BitVec.extractLsb'_toNat, Nat.shiftRight_eq_div_pow]
  omega

theorem glyphAddress_toNat (b : Byte) : (glyphAddress b).toNat = b.toNat % 16 * 5 := by
  have : (b &&& 0xF#8).toNat = b.toNat % 16 := by
    rw [BitVec.toNat_and]
    exact Nat.and_two_pow_sub_one_eq_mod b.toNat 4
  simp only [glyphAddress, this, BitVec.toNat_ofNat]
  omega

theorem sumByte_toNat (a b : Byte) : (sumByte a b).toNat = (a.toNat + b.toNat) % 256 := by
  simp [sumByte]

theorem differenceByte_toNat (a b : Byte) : (differenceByte a b).toNat = (256 + a.toNat - b.toNat) % 256 := by
  have := a.isLt
  have := b.isLt
  simp only [differenceByte, BitVec.toNat_ofInt]
  omega

theorem flagByte_toNat (f : Bool) : (flagByte f).toNat = if f then 1 else 0 := by
  cases f <;> rfl

theorem flagByte_zero_or_one (f : Bool) : flagByte f = 0#8 ∨ flagByte f = 1#8 := by
  cases f <;> simp [flagByte]

theorem rightShiftFlag_toNat (b : Byte) : (flagByte (rightShiftFlag b)).toNat = b.toNat % 2 := by
  have := b.isLt
  rw [flagByte_toNat, rightShiftFlag, BitVec.getLsbD, Nat.testBit_zero]
  rcases Nat.mod_two_eq_zero_or_one b.toNat with h | h <;> simp [h]

theorem leftShiftFlag_toNat (b : Byte) : (flagByte (leftShiftFlag b)).toNat = b.toNat / 128 := by
  have := b.isLt
  rw [flagByte_toNat, leftShiftFlag, BitVec.getLsbD, Nat.testBit_eq_decide_div_mod_eq]
  by_cases h : b.toNat / 2 ^ 7 % 2 = 1 <;> simp only [h, decide_true, decide_false, if_true, Bool.false_eq_true, if_false] <;> omega

theorem shiftRight_toNat (b : Byte) : (b >>> 1).toNat = b.toNat / 2 := by
  simp [BitVec.toNat_ushiftRight, Nat.shiftRight_eq_div_pow]

theorem shiftLeft_toNat (b : Byte) : (b <<< 1).toNat = b.toNat * 2 % 256 := by
  simp [BitVec.toNat_shiftLeft, Nat.shiftLeft_eq]

theorem regBlock_length (x : Reg) (s : State) : (regBlock x s).length = x.val + 1 := by
  have := x.isLt
  simp only [regBlock, List.length_take, Vector.length_toList]
  omega

theorem regBlock_get (x : Reg) (s : State) (k : Reg) (hk : k ≤ x) :
    (regBlock x s)[k.val]'(by rw [regBlock_length]; have : k.val ≤ x.val := hk; omega) = s.reg k := by
  simp [regBlock, State.reg]

theorem loadBlock_get (x : Reg) (a : Nat) (s : State) (k : Reg) :
    (loadBlock x a s)[k] = if k ≤ x then s.mem.read (a + k.val) else s.reg k := by
  simp [loadBlock, State.reg]

theorem bcdDigits_length (b : Byte) : (bcdDigits b).length = 3 := rfl

/-- No key is held, or the least held one is found (44_timers_keys.md R216). -/
theorem firstHeld_cases (key : Vector Bool 16) :
    (firstHeld key = none ∧ ∀ k : Fin 16, key[k] = false) ∨
      ∃ k : Fin 16, firstHeld key = some k ∧ key[k] = true ∧ ∀ j : Fin 16, j < k → key[j] = false := by
  cases h : firstHeld key with
  | none =>
    left
    refine ⟨rfl, fun k => ?_⟩
    have := List.find?_eq_none.1 h k (List.mem_finRange k)
    simpa using this
  | some k =>
    right
    refine ⟨k, rfl, by simpa using List.find?_some h, fun j hj => ?_⟩
    obtain ⟨-, as, bs, hl, has⟩ := List.find?_eq_some_iff_append.1 h
    have hjmem : j ∈ as ++ k :: bs := hl ▸ List.mem_finRange j
    have hpw : (as ++ k :: bs).Pairwise (· < ·) := hl ▸ List.pairwise_lt_finRange 16
    rcases List.mem_append.1 hjmem with hj' | hj'
    · simpa using has j hj'
    · exfalso
      rcases List.mem_cons.1 hj' with rfl | hj''
      · exact absurd hj (lt_irrefl _)
      · have := (List.pairwise_cons.1 (List.pairwise_append.1 hpw).2.1).1 j hj''
        exact absurd hj (not_lt.2 this.le)

end Sys2Proof.Machine
end

