-- ==== Sys2Proof/Laws/PerInstr.lean ====
section
/-! SUPPORT. Facts about every instruction as syntax, one lemma per constructor. The family `EncodesUnderTable`: the
word of a well-formed instruction matches the opcode map, unless the instruction is the no-op, and then it does not. -/

namespace Sys2Proof.Laws

/-- The instruction is the catch-all no-op (30_encoding.md R97). -/
def isNoOp : Instr → Bool
  | .nop _ => true
  | _ => false

/-- An instruction's word matches a row of the opcode map iff the instruction is not the no-op (30_encoding.md R95,
R97). -/
def EncodesUnderTable.Statement (i : Instr) : Prop := i.WellFormed → matchesTable (encode i) = !isNoOp i

/-- A pattern of the map that fits the word is enough. -/
theorem matchesTable_of_fits {w : Word} (p : Pattern) (hp : p ∈ patterns) (h : p.fits w = true) :
    matchesTable w = true := List.any_eq_true.2 ⟨p, hp, h⟩

theorem fits_top {op : Nat} {w : Word} (h : w.toNat / 4096 = op) : (patTop op).fits w = true := by
  simp [Pattern.fits, patTop, digitFits, opField_eq, h]

theorem fits_xy {op n : Nat} {w : Word} (h : w.toNat / 4096 = op) (hn : w.toNat % 16 = n) :
    (patXY op n).fits w = true := by
  simp [Pattern.fits, patXY, digitFits, opField_eq, nField_val, h, hn]

theorem fits_x {op a b : Nat} {w : Word} (h : w.toNat / 4096 = op) (ha : w.toNat / 16 % 16 = a)
    (hb : w.toNat % 16 = b) : (patX op a b).fits w = true := by
  simp [Pattern.fits, patX, digitFits, opField_eq, nField_val, yField_val, h, ha, hb]

theorem nnn_fits {op : Nat} (h : op < 16) (hp : patTop op ∈ patterns) (nnn : BitVec 12) :
    matchesTable (wordNNN op nnn) = true :=
  matchesTable_of_fits _ hp (fits_top (by rw [wordNNN_toNat h]; have := nnn.isLt; omega))

theorem xkk_fits {op : Nat} (h : op < 16) (hp : patTop op ∈ patterns) (x : Reg) (kk : Byte) :
    matchesTable (wordXKK op x kk) = true :=
  matchesTable_of_fits _ hp (fits_top (by rw [wordXKK_toNat h]; have := kk.isLt; have := x.isLt; omega))

theorem xy_fits {op : Nat} (h : op < 16) (n : Fin 16) (hp : patXY op n.val ∈ patterns) (x y : Reg) :
    matchesTable (wordXYN op x y n) = true := by
  have := n.isLt
  have := x.isLt
  have := y.isLt
  exact matchesTable_of_fits _ hp
    (fits_xy (by rw [wordXYN_toNat h]; omega) (by rw [wordXYN_toNat h]; omega))

theorem x_fits {op a b : Nat} (h : op < 16) (hb : b < 16) (kk : Byte) (hk : kk.toNat = a * 16 + b)
    (hp : patX op a b ∈ patterns) (x : Reg) : matchesTable (wordXKK op x kk) = true := by
  have := kk.isLt
  have := x.isLt
  exact matchesTable_of_fits _ hp (fits_x (by rw [wordXKK_toNat h]; omega) (by rw [wordXKK_toNat h]; omega)
    (by rw [wordXKK_toNat h]; omega))

namespace EncodesUnderTable

theorem cls : Statement .cls := fun _ => by decide
theorem ret : Statement .ret := fun _ => by decide
theorem jp (nnn : BitVec 12) : Statement (.jp nnn) := fun _ => nnn_fits (by decide) (by decide) nnn
theorem call (nnn : BitVec 12) : Statement (.call nnn) := fun _ => nnn_fits (by decide) (by decide) nnn
theorem seImm (x : Reg) (kk : Byte) : Statement (.seImm x kk) := fun _ => xkk_fits (by decide) (by decide) x kk
theorem sneImm (x : Reg) (kk : Byte) : Statement (.sneImm x kk) := fun _ => xkk_fits (by decide) (by decide) x kk
theorem seReg (x y : Reg) : Statement (.seReg x y) := fun _ => xy_fits (by decide) 0 (by decide) x y
theorem ldImm (x : Reg) (kk : Byte) : Statement (.ldImm x kk) := fun _ => xkk_fits (by decide) (by decide) x kk
theorem addImm (x : Reg) (kk : Byte) : Statement (.addImm x kk) := fun _ => xkk_fits (by decide) (by decide) x kk
theorem ldReg (x y : Reg) : Statement (.ldReg x y) := fun _ => xy_fits (by decide) 0 (by decide) x y
theorem orReg (x y : Reg) : Statement (.orReg x y) := fun _ => xy_fits (by decide) 1 (by decide) x y
theorem andReg (x y : Reg) : Statement (.andReg x y) := fun _ => xy_fits (by decide) 2 (by decide) x y
theorem xorReg (x y : Reg) : Statement (.xorReg x y) := fun _ => xy_fits (by decide) 3 (by decide) x y
theorem addReg (x y : Reg) : Statement (.addReg x y) := fun _ => xy_fits (by decide) 4 (by decide) x y
theorem sub (x y : Reg) : Statement (.sub x y) := fun _ => xy_fits (by decide) 5 (by decide) x y
theorem shr (x y : Reg) : Statement (.shr x y) := fun _ => xy_fits (by decide) 6 (by decide) x y
theorem subn (x y : Reg) : Statement (.subn x y) := fun _ => xy_fits (by decide) 7 (by decide) x y
theorem shl (x y : Reg) : Statement (.shl x y) := fun _ => xy_fits (by decide) 0xE (by decide) x y
theorem sneReg (x y : Reg) : Statement (.sneReg x y) := fun _ => xy_fits (by decide) 0 (by decide) x y
theorem ldI (nnn : BitVec 12) : Statement (.ldI nnn) := fun _ => nnn_fits (by decide) (by decide) nnn
theorem jpV0 (nnn : BitVec 12) : Statement (.jpV0 nnn) := fun _ => nnn_fits (by decide) (by decide) nnn
theorem rnd (x : Reg) (kk : Byte) : Statement (.rnd x kk) := fun _ => xkk_fits (by decide) (by decide) x kk
theorem drw (x y : Reg) (n : Fin 16) : Statement (.drw x y n) := fun _ =>
  matchesTable_of_fits (patTop 0xD) (by decide)
    (fits_top (by
      show (wordXYN 0xD x y n).toNat / 4096 = 0xD
      rw [wordXYN_toNat (by decide)]
      have := n.isLt
      have := x.isLt
      have := y.isLt
      omega))
theorem skp (x : Reg) : Statement (.skp x) := fun _ => x_fits (a := 9) (b := 0xE) (by decide) (by decide) _ rfl (by decide) x
theorem sknp (x : Reg) : Statement (.sknp x) := fun _ =>
  x_fits (a := 0xA) (b := 1) (by decide) (by decide) _ rfl (by decide) x
theorem ldVxDt (x : Reg) : Statement (.ldVxDt x) := fun _ =>
  x_fits (a := 0) (b := 7) (by decide) (by decide) _ rfl (by decide) x
theorem ldVxK (x : Reg) : Statement (.ldVxK x) := fun _ =>
  x_fits (a := 0) (b := 0xA) (by decide) (by decide) _ rfl (by decide) x
theorem ldDtVx (x : Reg) : Statement (.ldDtVx x) := fun _ =>
  x_fits (a := 1) (b := 5) (by decide) (by decide) _ rfl (by decide) x
theorem ldStVx (x : Reg) : Statement (.ldStVx x) := fun _ =>
  x_fits (a := 1) (b := 8) (by decide) (by decide) _ rfl (by decide) x
theorem addI (x : Reg) : Statement (.addI x) := fun _ =>
  x_fits (a := 1) (b := 0xE) (by decide) (by decide) _ rfl (by decide) x
theorem ldF (x : Reg) : Statement (.ldF x) := fun _ => x_fits (a := 2) (b := 9) (by decide) (by decide) _ rfl (by decide) x
theorem ldB (x : Reg) : Statement (.ldB x) := fun _ => x_fits (a := 3) (b := 3) (by decide) (by decide) _ rfl (by decide) x
theorem stRegs (x : Reg) : Statement (.stRegs x) := fun _ =>
  x_fits (a := 5) (b := 5) (by decide) (by decide) _ rfl (by decide) x
theorem ldRegs (x : Reg) : Statement (.ldRegs x) := fun _ =>
  x_fits (a := 6) (b := 5) (by decide) (by decide) _ rfl (by decide) x
theorem nop (w : Word) : Statement (.nop w) := fun h => by
  simpa [Instr.WellFormed, Instr.check, encode, isNoOp] using h

end EncodesUnderTable

end Sys2Proof.Laws
end

