-- ==== Sys2Proof/Laws/Screen.lean ====
section
/-! SUPPORT. The framebuffer's laws and the blit in closed form: what a draw does to each pixel, and when it collides
(43_display.md R192 to R194). -/

namespace Sys2Proof.Machine

/-- A flip changes one pixel, if it is on the display. -/
theorem pixel_flipPixel (fb : Framebuffer) (row col r c : Nat) :
    pixel (flipPixel fb row col) r c = (pixel fb r c != decide (row < 32 ∧ col < 64 ∧ r = row ∧ c = col)) := by
  unfold flipPixel
  split
  · rename_i hrow
    unfold pixel
    split
    · rename_i hr
      by_cases hrr : row = r
      · subst hrr
        simp only [Vector.getElem_set_self, BitVec.getLsbD_xor, BitVec.getLsbD_twoPow]
        by_cases hc : c = col
        · subst hc
          by_cases h64 : c < 64 <;> simp [hrow, h64, bne]
        · simp [hc, Ne.symm hc, bne]
      · simp [Vector.getElem_set_ne _ _ hrr, Ne.symm hrr]
    · rename_i hr
      have : r ≠ row := by omega
      simp [this]
  · rename_i hrow
    simp [hrow]

/-- The bit of a row of sprite byte `b` that column `col` receives from the columns `c` on of a row drawn at `x0`. -/
def rowBit (b : Byte) (x0 c fuel col : Nat) : Bool :=
  decide (x0 + c ≤ col ∧ col < x0 + c + fuel ∧ col ≤ 63) && b.getLsbD (7 - (col - x0))

theorem rowBit_outside {x0 c fuel col : Nat} (b : Byte) (h : ¬(x0 + c ≤ col ∧ col < x0 + c + fuel ∧ col ≤ 63)) :
    rowBit b x0 c fuel col = false := by
  rw [rowBit, decide_eq_false h, Bool.false_and]

theorem rowBit_inside {x0 c fuel col : Nat} (b : Byte) (h : x0 + c ≤ col ∧ col < x0 + c + fuel ∧ col ≤ 63) :
    rowBit b x0 c fuel col = b.getLsbD (7 - (col - x0)) := by
  rw [rowBit, decide_eq_true h, Bool.true_and]

/-- One sprite row: which pixels it flips. -/
theorem drawColumns_pixel (b : Byte) (row x0 : Nat) (hrow : row < 32) (fuel c : Nat) (k : Canvas) (r q : Nat) :
    pixel (drawColumns b row x0 fuel c k).fb r q = (pixel k.fb r q != (decide (r = row) && rowBit b x0 c fuel q)) := by
  induction fuel generalizing c k with
  | zero =>
    simp [drawColumns, rowBit_outside b (show ¬(x0 + c ≤ q ∧ q < x0 + c + 0 ∧ q ≤ 63) by omega)]
  | succ fuel ih =>
    unfold drawColumns
    split
    · simp [rowBit_outside b (show ¬(x0 + c ≤ q ∧ q < x0 + c + (fuel + 1) ∧ q ≤ 63) by omega)]
    · rw [ih]
      have hbit : pixel (k.drawBit (b.getLsbD (7 - c)) row (x0 + c)).fb r q
          = (pixel k.fb r q != (decide (r = row ∧ q = x0 + c) && b.getLsbD (7 - c))) := by
        unfold Canvas.drawBit
        cases hb : b.getLsbD (7 - c)
        · simp
        · have : row < 32 ∧ x0 + c < 64 := ⟨hrow, by omega⟩
          simp [pixel_flipPixel, this.1, this.2]
      rw [hbit]
      by_cases hr : r = row
      · by_cases hq : q = x0 + c
        · subst hq
          rw [rowBit_outside b (by omega), rowBit_inside b (by omega), show x0 + c - x0 = c by omega]
          simp [hr]
        · by_cases hin : x0 + c ≤ q ∧ q < x0 + c + (fuel + 1) ∧ q ≤ 63
          · rw [rowBit_inside b hin, rowBit_inside b (by omega)]
            simp [hq]
          · rw [rowBit_outside b hin, rowBit_outside b (by omega)]
            simp [hq]
      · simp [hr]

/-- One sprite row: when it collides. -/
theorem drawColumns_hit (b : Byte) (row x0 fuel c : Nat) (k : Canvas) :
    (drawColumns b row x0 fuel c k).hit = true ↔
      k.hit = true ∨ ∃ q, rowBit b x0 c fuel q = true ∧ pixel k.fb row q = true := by
  induction fuel generalizing c k with
  | zero =>
    have : ∀ q, rowBit b x0 c 0 q = false := fun q => rowBit_outside b (by omega)
    simp [drawColumns, this]
  | succ fuel ih =>
    unfold drawColumns
    split
    · have : ∀ q, rowBit b x0 c (fuel + 1) q = false := fun q => rowBit_outside b (by omega)
      simp [this]
    · rename_i hx
      rw [ih]
      have hfb : ∀ q, q ≠ x0 + c →
          pixel (k.drawBit (b.getLsbD (7 - c)) row (x0 + c)).fb row q = pixel k.fb row q := by
        intro q hq
        unfold Canvas.drawBit
        cases b.getLsbD (7 - c) <;> simp [pixel_flipPixel, hq]
      have hhit : (k.drawBit (b.getLsbD (7 - c)) row (x0 + c)).hit
          = (k.hit || (b.getLsbD (7 - c) && pixel k.fb row (x0 + c))) := rfl
      rw [hhit]
      constructor
      · rintro (h | ⟨q, hq, hp⟩)
        · rcases Bool.or_eq_true _ _ ▸ h with h | h
          · exact .inl h
          · obtain ⟨hb, hp⟩ := Bool.and_eq_true _ _ ▸ h
            refine .inr ⟨x0 + c, ?_, hp⟩
            have h2 : x0 + c ≤ x0 + c ∧ x0 + c < x0 + c + (fuel + 1) ∧ x0 + c ≤ 63 := by omega
            have h3 : x0 + c - x0 = c := by omega
            simp only [rowBit, h3, hb, Bool.and_true, decide_eq_true_eq]
            exact h2
        · unfold rowBit at hq
          simp only [Bool.and_eq_true, decide_eq_true_eq] at hq
          obtain ⟨hr, hb⟩ := hq
          refine .inr ⟨q, ?_, by rwa [hfb q (by omega)] at hp⟩
          simp only [rowBit, hb, Bool.and_true, decide_eq_true_eq]
          omega
      · rintro (h | ⟨q, hq, hp⟩)
        · left
          simp [h]
        · unfold rowBit at hq
          simp only [Bool.and_eq_true, decide_eq_true_eq] at hq
          obtain ⟨hr, hb⟩ := hq
          by_cases hqc : q = x0 + c
          · subst hqc
            left
            have h3 : x0 + c - x0 = c := by omega
            rw [h3] at hb
            simp [hb, hp]
          · right
            refine ⟨q, ?_, by rwa [hfb q hqc]⟩
            simp only [rowBit, hb, Bool.and_true, decide_eq_true_eq]
            omega

/-- The bit the rows `r` on of a sprite (`fuel` of them) put onto FB[row][col]. -/
def rowsBit (m : Memory) (a x0 y0 r fuel row col : Nat) : Bool :=
  decide (y0 + r ≤ row ∧ row < y0 + r + fuel) && rowBit (m.read (a + (row - y0))) x0 0 8 col

theorem rowsBit_outside {m : Memory} {a x0 y0 r fuel row : Nat} (col : Nat) (h : ¬(y0 + r ≤ row ∧ row < y0 + r + fuel)) :
    rowsBit m a x0 y0 r fuel row col = false := by
  rw [rowsBit, decide_eq_false h, Bool.false_and]

/-- The whole blit: which pixels it flips. -/
theorem drawRows_pixel (m : Memory) (a x0 y0 fuel r : Nat) (k : Canvas) (hin : y0 + r + fuel ≤ 32) (row col : Nat) :
    pixel (drawRows m a x0 y0 fuel r k).fb row col
      = (pixel k.fb row col != rowsBit m a x0 y0 r fuel row col) := by
  induction fuel generalizing r k with
  | zero =>
    simp [drawRows, rowsBit_outside (m := m) (a := a) (x0 := x0) col
      (show ¬(y0 + r ≤ row ∧ row < y0 + r + 0) by omega)]
  | succ fuel ih =>
    rw [drawRows, ih _ _ (by omega), drawColumns_pixel _ _ _ (by omega)]
    unfold rowsBit
    by_cases hr : row = y0 + r
    · subst hr
      have h1 : ¬(y0 + (r + 1) ≤ y0 + r ∧ y0 + r < y0 + (r + 1) + fuel) := by omega
      have h2 : y0 + r ≤ y0 + r ∧ y0 + r < y0 + r + (fuel + 1) := by omega
      have h3 : y0 + r - y0 = r := by omega
      simp only [h1, h2, h3, decide_true, decide_false, Bool.true_and, Bool.false_and, and_self, Bool.bne_false]
    · have : (y0 + (r + 1) ≤ row ∧ row < y0 + (r + 1) + fuel) ↔ (y0 + r ≤ row ∧ row < y0 + r + (fuel + 1)) := by omega
      simp [hr, this]

/-- The whole blit: when it collides. Each pixel is visited once, so "set before the XOR" is "set before the draw". -/
theorem drawRows_hit (m : Memory) (a x0 y0 fuel r : Nat) (k : Canvas) (hin : y0 + r + fuel ≤ 32) :
    (drawRows m a x0 y0 fuel r k).hit = true ↔
      k.hit = true ∨ ∃ row col, rowsBit m a x0 y0 r fuel row col = true ∧ pixel k.fb row col = true := by
  induction fuel generalizing r k with
  | zero =>
    have : ∀ row col, rowsBit m a x0 y0 r 0 row col = false := fun row col => rowsBit_outside col (by omega)
    simp [drawRows, this]
  | succ fuel ih =>
    rw [drawRows, ih _ _ (by omega), drawColumns_hit]
    have split_bit : ∀ row col, rowsBit m a x0 y0 r (fuel + 1) row col = true ↔
        (row = y0 + r ∧ rowBit (m.read (a + r)) x0 0 8 col = true) ∨ rowsBit m a x0 y0 (r + 1) fuel row col = true := by
      intro row col
      unfold rowsBit
      simp only [Bool.and_eq_true, decide_eq_true_eq]
      constructor
      · rintro ⟨h, hb⟩
        by_cases hr : row = y0 + r
        · left
          subst hr
          rw [show y0 + r - y0 = r by omega] at hb
          exact ⟨rfl, hb⟩
        · exact .inr ⟨by omega, hb⟩
      · rintro (⟨rfl, hb⟩ | ⟨h, hb⟩)
        · rw [show y0 + r - y0 = r by omega]
          exact ⟨by omega, hb⟩
        · exact ⟨by omega, hb⟩
    have keep : ∀ row col, rowsBit m a x0 y0 (r + 1) fuel row col = true →
        pixel (drawColumns (m.read (a + r)) (y0 + r) x0 8 0 k).fb row col = pixel k.fb row col := by
      intro row col h
      unfold rowsBit at h
      simp only [Bool.and_eq_true, decide_eq_true_eq] at h
      rw [drawColumns_pixel _ _ _ (by omega)]
      have : row ≠ y0 + r := by omega
      simp [this]
    constructor
    · rintro ((h | ⟨q, hq, hp⟩) | ⟨row, col, hb, hp⟩)
      · exact .inl h
      · exact .inr ⟨y0 + r, q, (split_bit _ _).2 (.inl ⟨rfl, hq⟩), hp⟩
      · exact .inr ⟨row, col, (split_bit _ _).2 (.inr hb), by rwa [keep _ _ hb] at hp⟩
    · rintro (h | ⟨row, col, hb, hp⟩)
      · exact .inl (.inl h)
      · rcases (split_bit _ _).1 hb with ⟨rfl, hq⟩ | hb'
        · exact .inl (.inr ⟨col, hq, hp⟩)
        · exact .inr ⟨row, col, hb', by rwa [keep _ _ hb']⟩

end Sys2Proof.Machine
end

