-- ==== Sys2Proof/Tests/Slice0.lean ====
section
/-! SUPPORT. Tests: decoding of words written out from 30_encoding.md section 4, one step of each instruction against the
spec's own vectors (95_test_vectors.md, named T<n> or H<n>), and a witness for the hypotheses of every obligation. -/

open Sys2Proof Sys2Proof.Machine Sys2Proof.Safety

namespace Sys2Proof.Tests

/-! ## Well-formedness and decoding -/

/-- The one check: a no-op must not carry another instruction's word (30_encoding.md R97). -/
theorem test_wellFormed : ¬ (Instr.nop 0x6A05#16).WellFormed ∧ (Instr.nop 0x8128#16).WellFormed ∧
    (Instr.drw 15 15 15).WellFormed := by decide

theorem test_decode_flow : decode 0x00EE#16 = .ret ∧ decode 0x1234#16 = .jp 0x234#12 ∧ decode 0x2ABC#16 = .call 0xABC#12 ∧
    decode 0xBFFF#16 = .jpV0 0xFFF#12 ∧ decode 0x3542#16 = .seImm 5 0x42#8 ∧ decode 0x4543#16 = .sneImm 5 0x43#8 ∧
    decode 0x5120#16 = .seReg 1 2 ∧ decode 0x9120#16 = .sneReg 1 2 := by decide

theorem test_decode_alu : decode 0x6A05#16 = .ldImm 10 5#8 ∧ decode 0x7220#16 = .addImm 2 0x20#8 ∧
    decode 0x8120#16 = .ldReg 1 2 ∧ decode 0x8121#16 = .orReg 1 2 ∧ decode 0x8122#16 = .andReg 1 2 ∧
    decode 0x8123#16 = .xorReg 1 2 ∧ decode 0x8124#16 = .addReg 1 2 ∧ decode 0x8125#16 = .sub 1 2 ∧
    decode 0x8126#16 = .shr 1 2 ∧ decode 0x8127#16 = .subn 1 2 ∧ decode 0x812E#16 = .shl 1 2 ∧
    decode 0xC30F#16 = .rnd 3 0x0F#8 := by decide

theorem test_decode_index : decode 0xA2F0#16 = .ldI 0x2F0#12 ∧ decode 0xF21E#16 = .addI 2 ∧ decode 0xF429#16 = .ldF 4 ∧
    decode 0xF033#16 = .ldB 0 ∧ decode 0xF255#16 = .stRegs 2 ∧ decode 0xF465#16 = .ldRegs 4 := by decide

theorem test_decode_display : decode 0x00E0#16 = .cls ∧ decode 0xD125#16 = .drw 1 2 5 := by decide

theorem test_decode_timers_keys : decode 0xF307#16 = .ldVxDt 3 ∧ decode 0xF315#16 = .ldDtVx 3 ∧
    decode 0xF018#16 = .ldStVx 0 ∧ decode 0xE19E#16 = .skp 1 ∧ decode 0xE1A1#16 = .sknp 1 ∧
    decode 0xF30A#16 = .ldVxK 3 := by decide

/-- T1 to T4, T7 to T9: words of families 0 and E that match no pattern. -/
theorem test_decode_nop_0E : decode 0x0000#16 = .nop 0#16 ∧ decode 0x00E1#16 = .nop 0x00E1#16 ∧
    decode 0x01EE#16 = .nop 0x01EE#16 ∧ decode 0x0123#16 = .nop 0x0123#16 ∧ decode 0xE19F#16 = .nop 0xE19F#16 ∧
    decode 0xE1A0#16 = .nop 0xE1A0#16 ∧ decode 0xE1AE#16 = .nop 0xE1AE#16 := by decide

/-- T5, T6, T10 to T13, T36, T37: words of families 5, 8, 9 and F that match no pattern. -/
theorem test_decode_nop_589F : decode 0x8128#16 = .nop 0x8128#16 ∧ decode 0x812F#16 = .nop 0x812F#16 ∧
    decode 0xF317#16 = .nop 0xF317#16 ∧ decode 0xF375#16 = .nop 0xF375#16 ∧ decode 0xF300#16 = .nop 0xF300#16 ∧
    decode 0xFFFF#16 = .nop 0xFFFF#16 ∧ decode 0x5121#16 = .nop 0x5121#16 ∧ decode 0x9125#16 = .nop 0x9125#16 := by decide

theorem test_decode_bytes : decodeBytes [0x6A, 0x05, 0x77] = .ok (.ldImm 10 5#8, [0x77]) ∧
    decodeBytes [0x6A] = .error .truncated ∧ decodeTableWord 16 0x6A05 = some (.ldImm 10 5#8) := by decide

/-! ## One step of each instruction -/

/-- The reset state with some registers set. -/
def start (regs : List (Reg × Byte)) : State := regs.foldl (fun s p => s.setReg p.1 p.2) State.reset

/-- The reset state with some registers, I and the bytes from I up set. -/
def startAt (i : Word) (bytes : List Byte) (regs : List (Reg × Byte)) : State :=
  { start regs with i := i, mem := State.reset.mem.writeBytes i.toNat bytes }

/-- The state after one step that runs `w` at 0x200, seen through `f`. -/
def ran {α : Type} (w : Nat) (s : State) (f : State → α) : Option α :=
  match step (s.withFetchWord 16 w) with
  | .next t => some (f t)
  | _ => none

/-- A fault record of a step at 0x200. -/
def latch (cause : FaultCause) (w : Word) (info : Nat) : Option FaultRecord := some ⟨cause, 0x200, some w, info⟩

/-- T116. -/
theorem test_cls : ran 0x00E0 { State.reset with fb := flipPixel (flipPixel State.reset.fb 0 0) 10 10 }
    (fun t => (t.fb == State.reset.fb, t.drawF, t.pc)) = some (true, true, 0x202) := by decide

/-- T21. -/
theorem test_ret : ran 0x00EE { State.reset with sp := 16, stack := State.reset.stack.set 15 0x0ABC }
    (fun t => (t.pc, t.sp)) = some (0x0ABC, 15) := by decide

/-- T22. -/
theorem test_ret_underflow : ran 0x00EE State.reset (fun t => (t.pc, t.fault)) = some (0x200, latch .stackUnderflow 0x00EE 0) := by decide

/-- T16. -/
theorem test_jp : ran 0x1FFF State.reset (fun t => t.pc) = some 0x0FFF := by decide

/-- T18. -/
theorem test_call : ran 0x2300 { State.reset with sp := 15 } (fun t => (t.pc, t.sp, t.stack[15])) = some (0x300, 16, 0x202) := by decide

/-- T19. -/
theorem test_call_overflow : ran 0x2300 { State.reset with sp := 16 } (fun t => (t.pc, t.sp, t.fault)) =
    some (0x200, 16, latch .stackOverflow 0x2300 16) := by decide

/-- T23. -/
theorem test_jpV0 : ran 0xBFFF (start [(0, 0xFF)]) (fun t => (t.pc)) = some (0x10FE) := by decide

/-- T24. -/
theorem test_jpV0_uses_V0 : ran 0xB234 (start [(0, 0x10), (2, 0x77)]) (fun t => (t.pc)) = some (0x0244) := by decide

/-- T25. -/
theorem test_seImm : ran 0x3542 (start [(5, 0x42)]) (fun t => (t.pc)) = some (0x204) := by decide

/-- T26. -/
theorem test_seImm_not : ran 0x3543 (start [(5, 0x42)]) (fun t => (t.pc)) = some (0x202) := by decide

/-- T27. -/
theorem test_sneImm : ran 0x4542 (start [(5, 0x42)]) (fun t => (t.pc)) = some (0x202) := by decide

/-- T28. -/
theorem test_sneImm_skip : ran 0x4543 (start [(5, 0x42)]) (fun t => (t.pc)) = some (0x204) := by decide

/-- T30. -/
theorem test_seReg : ran 0x5120 (start [(1, 9), (2, 9)]) (fun t => (t.pc)) = some (0x204) := by decide

/-- T32. -/
theorem test_seReg_not : ran 0x5120 (start [(1, 9), (2, 8)]) (fun t => (t.pc)) = some (0x202) := by decide

/-- T31. -/
theorem test_sneReg : ran 0x9120 (start [(1, 9), (2, 9)]) (fun t => (t.pc)) = some (0x202) := by decide

/-- T33. -/
theorem test_sneReg_skip : ran 0x9120 (start [(1, 9), (2, 8)]) (fun t => (t.pc)) = some (0x204) := by decide

/-- T39. -/
theorem test_ldImm : ran 0x6A05 (start []) (fun t => (t.reg 10, t.pc)) = some (0x05, 0x202) := by decide

/-- T41. -/
theorem test_addImm : ran 0x7220 (start [(2, 0xF0), (15, 7)]) (fun t => (t.reg 2, t.reg 15)) = some (0x10, 7) := by decide

/-- T45. -/
theorem test_ldReg : ran 0x8F10 (start [(1, 0x33), (15, 1)]) (fun t => (t.reg 15, t.reg 1)) = some (0x33, 0x33) := by decide

/-- T46. -/
theorem test_orReg : ran 0x8011 (start [(0, 0x0F), (1, 0xF0), (15, 0x5A)]) (fun t => (t.reg 0, t.reg 15)) = some (0xFF, 0x5A) := by decide

/-- T47. -/
theorem test_andReg : ran 0x8012 (start [(0, 0x3C), (1, 0x0F), (15, 0x5A)]) (fun t => (t.reg 0, t.reg 15)) = some (0x0C, 0x5A) := by decide

/-- T48. -/
theorem test_xorReg : ran 0x8013 (start [(0, 0xFF), (1, 0x0F), (15, 0x5A)]) (fun t => (t.reg 0, t.reg 15)) = some (0xF0, 0x5A) := by decide

/-- T50. -/
theorem test_addReg : ran 0x8014 (start [(0, 0xC8), (1, 0x64)]) (fun t => (t.reg 0, t.reg 15)) = some (0x2C, 1) := by decide

/-- T55. -/
theorem test_addReg_flag_wins : ran 0x8F14 (start [(15, 3), (1, 4)]) (fun t => (t.reg 15)) = some (0) := by decide

/-- T59. -/
theorem test_sub : ran 0x8015 (start [(0, 5), (1, 6)]) (fun t => (t.reg 0, t.reg 15)) = some (0xFF, 0) := by decide

/-- T65. -/
theorem test_sub_old_flag : ran 0x80F5 (start [(0, 3), (15, 1)]) (fun t => (t.reg 0, t.reg 15)) = some (2, 1) := by decide

/-- T67. -/
theorem test_subn : ran 0x8017 (start [(0, 5), (1, 6)]) (fun t => (t.reg 0, t.reg 15)) = some (1, 1) := by decide

/-- T70. -/
theorem test_subn_flag_wins : ran 0x8F17 (start [(15, 2), (1, 1)]) (fun t => (t.reg 15)) = some (0) := by decide

/-- T71 and T72. -/
theorem test_shr : ran 0x8016 (start [(0, 5), (1, 8)]) (fun t => (t.reg 0, t.reg 15)) =
    some (match Config.shiftSource with | .vx => (2, 1) | .vy => (4, 0)) := by
  have h : ∀ b : Byte, shiftOperand 0 1 ((start [(0, 5), (1, 8)]).withFetchWord 16 0x8016) = b →
      ran 0x8016 (start [(0, 5), (1, 8)]) (fun t => (t.reg 0, t.reg 15)) = some (b >>> 1, flagByte (rightShiftFlag b)) := by
    rintro b rfl
    rfl
  cases hs : Config.shiftSource
  · exact h 5 (by rw [shiftOperand, hs]; rfl)
  · exact h 8 (by rw [shiftOperand, hs]; rfl)

/-- T77 and T78. -/
theorem test_shl : ran 0x801E (start [(0, 0x81), (1, 0x40)]) (fun t => (t.reg 0, t.reg 15)) =
    some (match Config.shiftSource with | .vx => (2, 1) | .vy => (0x80, 0)) := by
  have h : ∀ b : Byte, shiftOperand 0 1 ((start [(0, 0x81), (1, 0x40)]).withFetchWord 16 0x801E) = b →
      ran 0x801E (start [(0, 0x81), (1, 0x40)]) (fun t => (t.reg 0, t.reg 15)) =
        some (b <<< 1, flagByte (leftShiftFlag b)) := by
    rintro b rfl
    rfl
  cases hs : Config.shiftSource
  · exact h 0x81 (by rw [shiftOperand, hs]; rfl)
  · exact h 0x40 (by rw [shiftOperand, hs]; rfl)

/-- T82, for the draw the free stream gives: masked, and the next draw is the next element. -/
theorem test_rnd : ran 0xC30F (start [(3, 0xFF)]) (fun t => (t.reg 3, t.draws)) = some (Config.randByte 0 &&& 0x0F, 1) := rfl

/-- T87. -/
theorem test_ldI : ran 0xAFFF { State.reset with i := 0x1234 }
    (fun t => (t.i, t.pc)) = some (0x0FFF, 0x202) := by decide

/-- T89. -/
theorem test_addI : ran 0xF21E { start [(2, 1)] with i := 0x0FFF }
    (fun t => (t.i, t.reg 15)) = some (0x1000, 0) := by decide

/-- T90. -/
theorem test_addI_wraps : ran 0xF21E { start [(2, 1)] with i := 0xFFFF }
    (fun t => (t.i)) = some (0) := by decide

/-- T93. -/
theorem test_ldF : ran 0xF429 (start [(4, 0x1A)])
    (fun t => (t.i, t.pc)) = some (0x32, 0x202) := by decide

/-- T96. -/
theorem test_ldB : ran 0xF033 (startAt 0x300 [9, 9, 9] [(0, 0xFF)])
    (fun t => (t.mem.read 0x300, t.mem.read 0x301, t.mem.read 0x302)) = some (2, 5, 5) := by decide

/-- T100. -/
theorem test_ldB_low : ran 0xF033 { start [(0, 0x64)] with i := 0x1FF }
    (fun t => (t.mem.read 0x201, t.fault)) = some (0x33, latch .lowWrite 0xF033 0x1FF) := by decide

/-- T103. -/
theorem test_stRegs : ran 0xF255 (startAt 0x400 [] [(0, 0x11), (1, 0x22), (2, 0x33)])
    (fun t => (t.mem.read 0x400, t.mem.read 0x401, t.mem.read 0x402, t.mem.read 0x403, t.i)) = some (0x11, 0x22, 0x33, 0, 0x400) := by decide

/-- T106. -/
theorem test_stRegs_range : ran 0xFF55 { start [(0, 0xA0)] with i := 0xFF1 }
    (fun t => (t.mem.read 0xFF1, t.fault)) = some (0, latch .memRange 0xFF55 0x1000) := by decide

/-- T110. -/
theorem test_ldRegs : ran 0xF265 (startAt 0x400 [0x11, 0x22, 0x33] [(3, 0x77)])
    (fun t => (t.reg 0, t.reg 1, t.reg 2, t.reg 3, t.i)) = some (0x11, 0x22, 0x33, 0x77, 0x400) := by decide

/-- T112. -/
theorem test_ldRegs_range : ran 0xFF65 { start [(0, 0x55)] with i := 0xFF1 }
    (fun t => (t.reg 0, t.fault)) = some (0x55, latch .memRange 0xFF65 0x1000) := by decide

/-- T122, with glyph 0 of the conventional font at 0x300; bit 63 of a row is column 63. -/
theorem test_drw : ran 0xD015 (startAt 0x300 [0xF0, 0x90, 0x90, 0x90, 0xF0] [(0, 0x3E)])
    (fun t => (t.fb[0], t.fb[1], t.fb[4], t.reg 15, t.drawF)) = some (0xC000000000000000, 0x4000000000000000, 0xC000000000000000, 0, true) := by decide

/-- T119, with glyph 0 at 0x300. -/
theorem test_drw_collision : ran 0xD005 { startAt 0x300 [0xF0, 0x90, 0x90, 0x90, 0xF0] [] with fb := flipPixel State.reset.fb 2 3 }
    (fun t => (t.fb[0], t.fb[2], t.fb[4], t.reg 15)) = some (0xF, 0x1, 0xF, 1) := by decide

/-- T135. -/
theorem test_ldVxDt : ran 0xF307 { State.reset with dt := 0x3C }
    (fun t => (t.reg 3, t.pc)) = some (0x3C, 0x202) := by decide

/-- T138. -/
theorem test_ldDtVx : ran 0xF315 { start [(3, 0xFF)] with dt := 0x10 }
    (fun t => (t.dt, t.st)) = some (0xFF, 0) := by decide

/-- T139. -/
theorem test_ldStVx : ran 0xF018 (start [(0, 5)])
    (fun t => (t.st, t.dt)) = some (5, 0) := by decide

/-- T142. -/
theorem test_skp : ran 0xE19E { start [(1, 0x1A)] with key := State.reset.key.set 10 true }
    (fun t => (t.pc)) = some (0x204) := by decide

/-- T141. -/
theorem test_skp_not : ran 0xE19E (start [(1, 5)])
    (fun t => (t.pc)) = some (0x202) := by decide

/-- T145. -/
theorem test_sknp : ran 0xE1A1 { start [(1, 0xF5)] with key := State.reset.key.set 5 true }
    (fun t => (t.pc)) = some (0x202) := by decide

/-- T143. -/
theorem test_sknp_skip : ran 0xE1A1 (start [(1, 5)])
    (fun t => (t.pc)) = some (0x204) := by decide

/-- T147. -/
theorem test_ldVxK : ran 0xF30A { start [(3, 0x99)] with key := (State.reset.key.set 7 true).set 2 true }
    (fun t => (t.reg 3, t.pc)) = some (2, 0x202) := by decide

/-- T146. -/
theorem test_ldVxK_waits : ran 0xF30A (start [(3, 0x99)])
    (fun t => (t.reg 3, t.pc)) = some (0x99, 0x200) := by decide

/-- T5. -/
theorem test_nop : ran 0x8128 (start [(1, 0xF0), (2, 0x0F), (15, 0x33)])
    (fun t => (t.reg 1, t.reg 15, t.pc)) = some (0xF0, 0x33, 0x202) := by decide

/-- T109: with the conventional font as a premise, `F465` at I = 0 loads glyph 0. -/
theorem test_glyph (h : Config.glyph = Config.conventionalFont) :
    ran 0xF465 State.reset (fun t => [t.reg 0, t.reg 1, t.reg 2, t.reg 3, t.reg 4]) =
      some [0xF0, 0x90, 0x90, 0x90, 0xF0] := by
  have hr : ran 0xF465 State.reset (fun t => [t.reg 0, t.reg 1, t.reg 2, t.reg 3, t.reg 4]) =
      some [Config.glyph[0], Config.glyph[1], Config.glyph[2], Config.glyph[3], Config.glyph[4]] := rfl
  rw [hr, h]
  decide

/-- H2: the fetch at 0xFFF. -/
theorem test_fetch_fault : step { State.reset with pc := 0xFFF } =
    .next { State.reset with pc := 0xFFF, fault := some ⟨.memRange, 0xFFF, none, 0x1000⟩ } := by rfl

/-- H9 and H10: what `Load` answers. -/
theorem test_load : loadError (List.replicate 3584 0xAA) = none ∧ loadError (List.replicate 3585 0xAA) = some .tooLarge ∧
    hostLoad [] State.reset = State.reset := by
  refine ⟨?_, ?_, rfl⟩ <;> rw [loadError, List.length_replicate]
  · rfl
  · rfl

/-- H11 and H12. -/
theorem test_tick : tickDown 2 = 1 ∧ tickDown 1 = 0 ∧ tickDown 0 = 0 ∧ tickDown 255 = 254 := by decide

/-- H14. -/
theorem test_setKey : (hostSetKey 3 true State.reset).key = State.reset.key.set 3 true ∧
    hostSetKey 16 true State.reset = State.reset ∧ hostSetKey (-1) true State.reset = State.reset := by decide

/-- H16 and H17, on a display with pixel (row 4, column 3) set. -/
theorem test_getPixel : let s := { State.reset with fb := flipPixel State.reset.fb 4 3 }
    hostGetPixel 3 4 s = true ∧ hostGetPixel 4 3 s = false ∧ hostGetPixel 70 10 s = false ∧ hostGetPixel 5 40 s = false ∧
      hostGetPixel (-1) 0 s = false := by decide

/-! ## Witnesses: states and operands that meet the hypotheses of each obligation, at the ends of their ranges -/

theorem witness_DecodeOfEncodeIsIdentity : (Instr.call 0xFFF#12).WellFormed ∧ (Instr.nop 0x812F#16).WellFormed := by decide

/-- A word at 0xFFE, the last place one fits. -/
theorem witness_StepRunsTheDecodedInstruction : let s := { State.reset with pc := 0xFFE }
    CanFetch s ∧ decode (BitVec.ofNat 16 ((s.mem.read s.pc.toNat).toNat * 256 + (s.mem.read (s.pc.toNat + 1)).toNat)) =
      .nop 0 := by decide

theorem witness_PlacedInstructionRunsNext : State.reset.mem.wf ∧ (Instr.drw 15 15 15).WellFormed :=
  ⟨⟨List.Pairwise.nil, fun _ h => by cases h⟩, by decide⟩

theorem witness_FetchAboveMemoryFaults : let s := { State.reset with pc := 0xFFF }
    let t := { State.reset with pc := 0xFFFF }
    (s.fault = none ∧ s.pc.toNat ≥ 0xFFF) ∧ t.fault = none ∧ t.pc.toNat ≥ 0xFFF := by decide

/-- A halted state, as T22 leaves it. -/
def halted : State := { State.reset with fault := latch .stackUnderflow 0x00EE 0, dt := 3 }

theorem witness_HaltedStepChangesNothing : halted.fault ≠ none := by decide

theorem witness_OnlyInitializeClearsTheLatch : halted.fault = some ⟨.stackUnderflow, 0x200, some 0x00EE, 0⟩ ∧
    Event.step ≠ .reset ∧ Event.setKey 4 true ≠ .reset ∧ halted.mem.wf ∧
    (List.replicate 3584 (0xAA : Byte)).length ≤ 3584 :=
  ⟨by decide, by decide, by decide, ⟨List.Pairwise.nil, fun _ h => by cases h⟩, by rw [List.length_replicate]⟩

/-- A step that faults in the instruction, and one that faults in the fetch. -/
theorem witness_FaultingStepChangesOnlyTheLatch :
    (∃ s t : State, s.fault = none ∧ step s = .next t ∧ t.fault ≠ none ∧ s.pc.toNat ≤ 0xFFE) ∧
      ∃ s t : State, s.fault = none ∧ step s = .next t ∧ t.fault ≠ none ∧ s.pc.toNat > 0xFFE := by
  refine ⟨⟨State.reset.withFetchWord 16 0x00EE, _, rfl, rfl, by decide, by decide⟩,
    ⟨{ State.reset with pc := 0xFFF }, _, rfl, rfl, ?_, by decide⟩⟩
  intro h
  cases h

/-- Steps with PC at 0xFFF and at 0xFFE, and an instruction that faults and one that does not. -/
theorem witness_FaultsAreExactlyTheTable :
    (∃ t, step { State.reset with pc := 0xFFF } = .next t) ∧ (∃ t, step { State.reset with pc := 0xFFE } = .next t) ∧
    (∃ t, exec (.ldRegs 15) { State.reset with i := 0xFF1 } = .next t) ∧ State.reset.fault = none ∧
      faultTable (.ldRegs 15) { State.reset with i := 0xFF1 } = some (.memRange, 0x1000) ∧
      faultTable (.ldRegs 15) { State.reset with i := 0xFF0 } = none :=
  ⟨⟨_, rfl⟩, ⟨_, rfl⟩, ⟨_, rfl⟩, rfl, by decide, by decide⟩

/-- Both cases: SP = 17 and SP = 16. -/
theorem witness_OnlyReturnFromNoSlotStops : exec .ret { State.reset with sp := 17 } = .fault .noStackSlot ∧
    ∃ t, exec .ret { State.reset with sp := 16 } = .next t := ⟨rfl, _, rfl⟩

/-- A state that is not the reset state and meets the invariant: a full stack and a running timer. -/
def busy : State := { State.reset with sp := 16, dt := 3 }

theorem busy_invariant : Invariant busy :=
  ⟨by decide, ⟨List.Pairwise.nil, fun _ h => by cases h⟩, fun _ _ => rfl, fun _ h => by cases h⟩

theorem witness_StepKeepsInvariant : Invariant busy ∧ ∃ t, step busy = .next t := ⟨busy_invariant, _, rfl⟩

theorem witness_StepsAndEventsKeepInvariant : Invariant busy := busy_invariant

/-- The last byte `F155` stores and the one after it, the slot of a call and the next, the last pixel of a draw at the
corner and one beside it. -/
theorem witness_InstructionsWriteOnlyWhatTheyName : (∃ t, exec (.ldRegs 3) State.reset = .next t) ∧
    (mayWriteReg (.ldRegs 3) 3 ∧ ¬ mayWriteReg (.ldRegs 3) 4) ∧
    (mayWriteByte (.stRegs 1) { State.reset with i := 0x300 } 0x301 ∧
      ¬ mayWriteByte (.stRegs 1) { State.reset with i := 0x300 } 0x302) ∧
    (mayWriteSlot (.call 0) State.reset 0 ∧ ¬ mayWriteSlot (.call 0) State.reset 1) ∧
    mayWritePixel (.drw 0 0 1) (start [(0, 0xFF)]) 31 63 ∧ ¬ mayWritePixel (.drw 0 0 1) (start [(0, 0xFF)]) 31 62 := by
  refine ⟨⟨_, rfl⟩, by simp [mayWriteReg], ?_, by simp [mayWriteSlot, State.reset], ?_⟩
  · unfold mayWriteByte
    decide
  · unfold mayWritePixel
    decide

theorem witness_NetChangeOfPc : ∃ t, State.reset.fault = none ∧ exec (.jpV0 0xFFF) State.reset = .next t ∧ t.fault = none :=
  ⟨_, rfl, rfl, rfl⟩

theorem witness_FlagWritersLeaveZeroOrOne : (∃ t, exec (.addReg 15 15) State.reset = .next t ∧ t.fault = none) ∧
    ∃ t, exec (.drw 15 0 1) State.reset = .next t ∧ t.fault = none := ⟨⟨_, rfl, rfl⟩, ⟨_, rfl, rfl⟩⟩

theorem witness_NoStoreBelowProgramBase : (∃ t, exec (.stRegs 15) { State.reset with i := 0x200 } = .next t) ∧
    ∃ t, exec (.stRegs 15) { State.reset with i := 0x1F1 } = .next t := ⟨⟨_, rfl⟩, _, rfl⟩

theorem witness_KeysAreSeenByKeyInstructionsOnly :
    (∀ x, Instr.ldVxDt 3 ≠ .skp x ∧ Instr.ldVxDt 3 ≠ .sknp x ∧ Instr.ldVxDt 3 ≠ .ldVxK x) ∧
      ∃ t, exec (.ldVxDt 3) State.reset = .next t := ⟨by decide, _, rfl⟩

theorem witness_SoundTimerAndDrawFlagAreNeverRead : ∃ t, exec .cls State.reset = .next t := ⟨_, rfl⟩

theorem witness_JumpAbsolute : State.reset.pc.toNat = (0x200#12).toNat := by decide

/-- The clauses with x ≠ 15: x = 0 and x = 14. -/
theorem witness_AddRegistersWithCarryFlag : (0 : Reg) ≠ 15 ∧ (14 : Reg) ≠ 15 := by decide

theorem witness_SubtractWithNotBorrowFlag : (0 : Reg) ≠ 15 ∧ (14 : Reg) ≠ 15 := by decide

theorem witness_ShiftsByOneBit : (0 : Reg) ≠ 15 ∧ (14 : Reg) ≠ 15 := by decide

/-- SP = 0 and SP = 15. -/
theorem witness_CallPushesReturnAddress : State.reset.sp.toNat < 16 ∧ { State.reset with sp := 15 }.sp.toNat < 16 := by decide

/-- SP = 1 and SP = 16. -/
theorem witness_ReturnPopsAddress : { State.reset with sp := 1 }.sp.toNat = (0 : Fin 16).val + 1 ∧
    busy.sp.toNat = (15 : Fin 16).val + 1 := by decide

theorem witness_ReturnUndoesCall : { State.reset with sp := 15 }.sp.toNat < 16 := by decide

theorem witness_NoOpOnlyAdvances : CanFetch State.reset ∧
    ∀ p ∈ patterns, p.fits (wordAt State.reset State.reset.pc.toNat) = false := by decide

/-- A state with no cell listed and I at `a`. -/
def atIndex (a : Word) : State := { State.reset with i := a }

theorem atIndex_wf (a : Word) : (atIndex a).mem.wf := ⟨List.Pairwise.nil, fun _ h => by cases h⟩

theorem witness_BcdStoresThreeDigits : (atIndex 0x200).mem.wf ∧ (atIndex 0xFFD).mem.wf ∧
    (0x200 ≤ (atIndex 0x200).i.toNat ∧ (atIndex 0x200).i.toNat + 2 ≤ 0xFFF) ∧
    0x200 ≤ (atIndex 0xFFD).i.toNat ∧ (atIndex 0xFFD).i.toNat + 2 ≤ 0xFFF :=
  ⟨atIndex_wf _, atIndex_wf _, by decide, by decide⟩

/-- `FF55` at the highest base, and `F055` at the last byte. -/
theorem witness_StoreRegistersAtIndex : (atIndex 0xFF0).mem.wf ∧ (atIndex 0xFFF).mem.wf ∧
    (0x200 ≤ (atIndex 0xFF0).i.toNat ∧ (atIndex 0xFF0).i.toNat + (15 : Reg).val ≤ 0xFFF) ∧
    0x200 ≤ (atIndex 0xFFF).i.toNat ∧ (atIndex 0xFFF).i.toNat + (0 : Reg).val ≤ 0xFFF :=
  ⟨atIndex_wf _, atIndex_wf _, by decide, by decide⟩

theorem witness_LoadRegistersFromIndex : (atIndex 0).i.toNat + (15 : Reg).val ≤ 0xFFF ∧
    (atIndex 0xFF0).i.toNat + (15 : Reg).val ≤ 0xFFF := by decide

theorem witness_LoadAfterStoreKeepsRegisters : (atIndex 0x200).mem.wf ∧ 0x200 ≤ (atIndex 0x200).i.toNat ∧
    (atIndex 0x200).i.toNat + (15 : Reg).val ≤ 0xFFF := ⟨atIndex_wf _, by decide⟩

theorem witness_GlyphOfDigitIsLoaded : Invariant busy := busy_invariant

/-- PC = 0x200, I = 0x202: V[0] and V[1] overwrite the next word. -/
theorem witness_StoredCodeRunsNext : (0 : Reg).val < (1 : Reg).val ∧ (atIndex 0x202).mem.wf ∧ (atIndex 0x202).fault = none ∧
    0x200 ≤ (atIndex 0x202).i.toNat ∧ (atIndex 0x202).i.toNat + (1 : Reg).val ≤ 0xFFF ∧
    (atIndex 0x202).pc.toNat + 2 = (atIndex 0x202).i.toNat + (0 : Reg).val := ⟨by decide, atIndex_wf _, by decide⟩

/-- Fifteen rows ending at the last byte, and no row with I beyond memory. -/
theorem witness_DrawXorsSpriteOntoScreen :
    (atIndex 0xFF1).i.toNat + min (15 : Fin 16).val (32 - ((atIndex 0xFF1).reg 1).toNat % 32) ≤ 0x1000 ∧
      min (0 : Fin 16).val (32 - ((atIndex 0xFFFF).reg 1).toNat % 32) = 0 := by decide

theorem witness_DrawTwiceRestoresScreen : (0 : Reg) ≠ 15 ∧ (14 : Reg) ≠ 15 ∧
    (atIndex 0xFF1).i.toNat + min (15 : Fin 16).val (32 - ((atIndex 0xFF1).reg 14).toNat % 32) ≤ 0x1000 := by decide

/-- A draw after the clear: fifteen rows ending at the last byte. -/
theorem witness_DrawFlagEvents : ∃ t, applyEvent .clearDrawFlag { State.reset with i := 0xFF1, drawF := true } = .next t ∧
    t.i.toNat + min (15 : Fin 16).val (32 - (t.reg 1).toNat % 32) ≤ 0x1000 := ⟨_, rfl, by decide⟩

/-- V[1] = 0x1A selects key 10, held or not. -/
theorem witness_SkipOnKey : (10 : Fin 16).val = ((start [(1, 0x1A)]).reg 1).toNat % 16 := by decide

/-- No key, key 0, and key 15 alone. -/
theorem witness_WaitForKeyTakesLowestHeld : (∀ k : Fin 16, State.reset.key[k] = false) ∧
    (State.reset.key.set 0 true)[(0 : Fin 16)] = true ∧
    (State.reset.key.set 15 true)[(15 : Fin 16)] = true ∧
    ∀ j : Fin 16, j < 15 → (State.reset.key.set 15 true)[j] = false := by decide

theorem witness_SetKeySetsOneKey : (0 : Int) = (0 : Fin 16).val ∧ (15 : Int) = (15 : Fin 16).val ∧
    ((-1 : Int) < 0 ∨ (-1 : Int) ≥ 16) ∧ ((16 : Int) < 0 ∨ (16 : Int) ≥ 16) := by decide

theorem witness_GetPixelIsTotalAndReadOnly : (63 : Int) = (63 : Fin 64).val ∧ (31 : Int) = (31 : Fin 32).val ∧
    ((64 : Int) < 0 ∨ (64 : Int) ≥ 64) ∧ ((-1 : Int) < 0 ∨ (-1 : Int) ≥ 32) ∧ (32 : Int) ≥ 32 := by decide

theorem witness_LoadCopiesImageOrRefusesWhole : State.reset.mem.wf ∧
    (List.replicate 3584 (0xAA : Byte)).length ≤ 3584 ∧ (List.replicate 3585 (0xAA : Byte)).length > 3584 := by
  refine ⟨atIndex_wf 0, ?_, ?_⟩ <;> rw [List.length_replicate]
  decide

/-- `1200` at 0x200. -/
theorem witness_EndedProgramStaysEnded : Ended (State.reset.withFetchWord 16 0x1200) ∧ Event.tickTimers ≠ .reset ∧
    ∀ bytes, Event.tickTimers ≠ .load bytes :=
  ⟨⟨by decide, 0x200, by decide⟩, by decide, fun _ h => by cases h⟩

end Sys2Proof.Tests
end

section
/-! Words of the XKK format (30_encoding.md R93, R103): their fields, and the families that are one instruction each. -/

namespace Sys2Proof

variable {op : Nat} (h : op < 16) (x : Reg) (kk : Byte)
include h

theorem opField_wordXKK : opField (wordXKK op x kk) = op := by
  rw [opField_eq, wordXKK_toNat h]
  omega

theorem xField_wordXKK : xField (wordXKK op x kk) = x := by
  apply Fin.ext
  rw [xField_val, wordXKK_toNat h]
  omega

theorem kkField_wordXKK : kkField (wordXKK op x kk) = kk := by
  apply BitVec.eq_of_toNat_eq
  rw [kkField_toNat, wordXKK_toNat h]
  omega

omit h

theorem decode_wordXKK_seImm : decode (wordXKK 0x3 x kk) = .seImm x kk := by
  simp [decode, opField_wordXKK, xField_wordXKK, kkField_wordXKK]

theorem decode_wordXKK_sneImm : decode (wordXKK 0x4 x kk) = .sneImm x kk := by
  simp [decode, opField_wordXKK, xField_wordXKK, kkField_wordXKK]

end Sys2Proof
end

section
/-! Skips (40_flow.md R120, R125, R126): a skip is a jump to the next word or to the one after it. -/

namespace Sys2Proof.Machine

open Sys2Proof.Safety

/-- A jump writes PC alone. -/
theorem keepsAllBut_jump (s : State) (a : Word) : KeepsAllBut [.pc] s (s.jump a) := by
  intro p hp
  cases p with
  | pc => exact absurd (List.mem_singleton_self _) hp
  | _ => simp [Same]

theorem skipIf_eq (c : Bool) (s : State) : skipIf c s = .next (s.jump (s.pc + if c then 4 else 2)) := by
  cases c with
  | false => rfl
  | true =>
    have hpc : s.pc + 2 + 2 = s.pc + 4 := BitVec.add_assoc s.pc 2 2
    rw [if_pos rfl, ← hpc]
    rfl

theorem exec_seImm (x : Reg) (kk : Byte) (s : State) :
    exec (.seImm x kk) s = .next (s.jump (s.pc + if s.reg x = kk then 4 else 2)) := by
  show skipIf (s.reg x == kk) s = _
  simp [skipIf_eq]

theorem exec_sneImm (x : Reg) (kk : Byte) (s : State) :
    exec (.sneImm x kk) s = .next (s.jump (s.pc + if s.reg x = kk then 2 else 4)) := by
  show skipIf (s.reg x != kk) s = _
  simp [skipIf_eq]

/-- Settles O35: both words are of the XKK format, and both skips are jumps. -/
theorem skipOnImmediate : Obligations.SkipOnImmediate := fun x kk =>
  ⟨decode_wordXKK_seImm x kk, decode_wordXKK_sneImm x kk, fun s =>
    ⟨⟨_, exec_seImm x kk s, rfl, keepsAllBut_jump s _⟩, ⟨_, exec_sneImm x kk s, rfl, keepsAllBut_jump s _⟩⟩⟩

end Sys2Proof.Machine
end

section
/-! Register load and add of an immediate (41_alu.md R141, R142): PC advances and one register is written. -/

namespace Sys2Proof

theorem decode_wordXKK_ldImm (x : Reg) (kk : Byte) : decode (wordXKK 0x6 x kk) = .ldImm x kk := by
  simp [decode, opField_wordXKK, xField_wordXKK, kkField_wordXKK]

theorem decode_wordXKK_addImm (x : Reg) (kk : Byte) : decode (wordXKK 0x7 x kk) = .addImm x kk := by
  simp [decode, opField_wordXKK, xField_wordXKK, kkField_wordXKK]

end Sys2Proof

namespace Sys2Proof.Machine

open Sys2Proof.Safety

theorem reg_advance_setReg_self (s : State) (x : Reg) (b : Byte) : (s.advance.setReg x b).reg x = b := by
  rw [State.reg_setReg, if_pos rfl]

theorem keepsRegsBut_advance_setReg (s : State) (x : Reg) (b : Byte) : KeepsRegsBut x s (s.advance.setReg x b) := by
  intro r hr
  rw [State.reg_setReg, if_neg hr, State.advance_reg]

/-- An advance with a register write touches the V file and PC alone. -/
theorem keepsAllBut_advance_setReg (s : State) (x : Reg) (b : Byte) :
    KeepsAllBut [.regs, .pc] s (s.advance.setReg x b) := by
  intro p hp
  cases p with
  | regs => exact absurd List.mem_cons_self hp
  | pc => exact absurd (List.mem_cons_of_mem _ List.mem_cons_self) hp
  | _ => simp [Same]

theorem exec_ldImm (x : Reg) (kk : Byte) (s : State) : exec (.ldImm x kk) s = .next (s.advance.setReg x kk) := rfl

theorem exec_addImm (x : Reg) (kk : Byte) (s : State) :
    exec (.addImm x kk) s = .next (s.advance.setReg x (sumByte (s.reg x) kk)) := rfl

/-- Settles O26: the word is of the XKK format, and its effect is one register write after the advance of PC. -/
theorem loadImmediate : Obligations.LoadImmediate := fun x kk =>
  ⟨decode_wordXKK_ldImm x kk, fun s =>
    ⟨_, exec_ldImm x kk s, reg_advance_setReg_self s x kk, keepsRegsBut_advance_setReg s x kk, rfl,
      keepsAllBut_advance_setReg s x kk⟩⟩

/-- Settles O27: as for `6xkk`, with the byte sum as the value; VF is kept as every other register is. -/
theorem addImmediateWrapsWithoutFlag : Obligations.AddImmediateWrapsWithoutFlag := fun x kk =>
  ⟨decode_wordXKK_addImm x kk, fun s => by
    refine ⟨_, exec_addImm x kk s, ?_, keepsRegsBut_advance_setReg s x _, rfl, keepsAllBut_advance_setReg s x _⟩
    rw [reg_advance_setReg_self, sumByte_toNat]⟩

end Sys2Proof.Machine
end

section
/-! Words of the NNN format and of family F (30_encoding.md R93, R103): their fields, and the words that write I. -/

namespace Sys2Proof

theorem opField_wordNNN {op : Nat} (h : op < 16) (nnn : BitVec 12) : opField (wordNNN op nnn) = op := by
  have := nnn.isLt
  rw [opField_eq, wordNNN_toNat h]
  omega

theorem nnnField_wordNNN {op : Nat} (h : op < 16) (nnn : BitVec 12) : nnnField (wordNNN op nnn) = nnn := by
  have := nnn.isLt
  apply BitVec.eq_of_toNat_eq
  rw [nnnField_toNat, wordNNN_toNat h]
  omega

theorem decode_wordNNN_ldI (nnn : BitVec 12) : decode (wordNNN 0xA nnn) = .ldI nnn := by
  simp [decode, opField_wordNNN, nnnField_wordNNN]

/-- A word of the X format, whose fixed digits are the number `base`, is the XKK word with its fixed byte as kk. -/
theorem ofNat_add_mul_eq_wordXKK {base op : Nat} {kk : Byte} (h : base = op * 4096 + kk.toNat) (x : Reg) :
    BitVec.ofNat 16 (base + x.val * 256) = wordXKK op x kk := by
  rw [wordXKK, h, Nat.add_right_comm]

/-- Family F is dispatched by `decodeF`, on the byte kk. -/
theorem decode_wordXKK_familyF (x : Reg) (kk : Byte) : decode (wordXKK 0xF x kk) = decodeF (wordXKK 0xF x kk) := by
  simp [decode, opField_wordXKK]

theorem decode_wordXKK_addI (x : Reg) : decode (wordXKK 0xF x 0x1E) = .addI x := by
  rw [decode_wordXKK_familyF]
  simp [decodeF, xField_wordXKK, kkField_wordXKK]

theorem decode_wordXKK_ldF (x : Reg) : decode (wordXKK 0xF x 0x29) = .ldF x := by
  rw [decode_wordXKK_familyF]
  simp [decodeF, xField_wordXKK, kkField_wordXKK]

end Sys2Proof
end

section
/-! Writes of the index register (42_index_memory.md R171, R172, R173): PC advances and I alone is written. -/

namespace Sys2Proof.Machine

open Sys2Proof.Safety

/-- An advance with a write of I touches I and PC alone. -/
theorem keepsAllBut_advance_setI (s : State) (a : Word) : KeepsAllBut [.index, .pc] s (s.advance.setI a) := by
  intro p hp
  cases p with
  | index => exact absurd List.mem_cons_self hp
  | pc => exact absurd (List.mem_cons_of_mem _ List.mem_cons_self) hp
  | _ => simp [Same]

theorem exec_ldI (nnn : BitVec 12) (s : State) : exec (.ldI nnn) s = .next (s.advance.setI (addressOf nnn)) := rfl

theorem exec_addI (x : Reg) (s : State) :
    exec (.addI x) s = .next (s.advance.setI (BitVec.ofNat 16 (s.i.toNat + (s.reg x).toNat))) := rfl

theorem exec_ldF (x : Reg) (s : State) : exec (.ldF x) s = .next (s.advance.setI (glyphAddress (s.reg x))) := rfl

/-- Settles O41: each of the three writes I after the advance of PC, and they differ in the value alone. -/
theorem indexRegisterWrites : Obligations.IndexRegisterWrites := by
  refine ⟨fun nnn => ⟨decode_wordNNN_ldI nnn, fun s => ?_⟩, fun x => ⟨?_, fun s => ?_⟩, fun x => ⟨?_, fun s => ?_⟩⟩
  · exact ⟨_, exec_ldI nnn s, addressOf_toNat nnn, rfl, keepsAllBut_advance_setI s _⟩
  · exact (congrArg decode (ofNat_add_mul_eq_wordXKK (by decide) x)).trans (decode_wordXKK_addI x)
  · exact ⟨_, exec_addI x s, BitVec.toNat_ofNat _ 16, rfl, keepsAllBut_advance_setI s _⟩
  · exact (congrArg decode (ofNat_add_mul_eq_wordXKK (by decide) x)).trans (decode_wordXKK_ldF x)
  · exact ⟨_, exec_ldF x s, glyphAddress_toNat (s.reg x), rfl, keepsAllBut_advance_setI s _⟩

end Sys2Proof.Machine
end

section
/-! The blank framebuffer and a clear (43_display.md R191): PC advances, FB is blank, DRAWF is set. -/

namespace Sys2Proof.Machine

open Sys2Proof.Safety

/-- The blank framebuffer has no pixel set, on the display or off it. -/
theorem pixel_replicate_zero (row col : Nat) : pixel (Vector.replicate 32 0) row col = false := by
  unfold pixel
  split
  · rw [Vector.getElem_replicate]
    exact BitVec.getLsbD_zero
  · rfl

/-- An advance with a new framebuffer and draw flag touches FB, DRAWF and PC alone. -/
theorem keepsAllBut_advance_display (s : State) (fb : Framebuffer) (d : Bool) :
    KeepsAllBut [.framebuffer, .drawFlag, .pc] s { s.advance with fb := fb, drawF := d } := by
  intro p hp
  cases p with
  | framebuffer => exact absurd (by decide) hp
  | drawFlag => exact absurd (by decide) hp
  | pc => exact absurd (by decide) hp
  | regs => exact fun _ => rfl
  | _ => simp [Same]

theorem decode_cls : decode 0x00E0#16 = .cls := by decide

theorem exec_cls (s : State) :
    exec .cls s = .next { s.advance with fb := Vector.replicate 32 0, drawF := true } := rfl

/-- Settles O48: the framebuffer after a clear is the blank one, whatever it was before. -/
theorem clearScreen : Obligations.ClearScreen :=
  ⟨decode_cls, fun s =>
    ⟨_, exec_cls s, pixel_replicate_zero, rfl, rfl, keepsAllBut_advance_display s _ _⟩⟩

end Sys2Proof.Machine
end

section
/-! Reading a pixel (43_display.md R197): the range test passes exactly on the display. -/

namespace Sys2Proof.Machine

theorem hostGetPixel_onDisplay (col : Fin 64) (row : Fin 32) (s : State) :
    hostGetPixel col.val row.val s = pixel s.fb row col := by
  rw [hostGetPixel, if_pos (by omega), Int.toNat_natCast, Int.toNat_natCast]

theorem hostGetPixel_offDisplay {x y : Int} (h : x < 0 ∨ x ≥ 64 ∨ y < 0 ∨ y ≥ 32) (s : State) :
    hostGetPixel x y s = false := by
  rw [hostGetPixel, if_neg (by omega)]

/-- Settles O56: the event's next state is the state itself, and its answer is `hostGetPixel`'s, on and off the
display. -/
theorem getPixelIsTotalAndReadOnly : Obligations.GetPixelIsTotalAndReadOnly := by
  intro x y s
  refine ⟨rfl, ?_, ?_⟩
  · rintro col row rfl rfl
    exact congrArg Reply.bit (hostGetPixel_onDisplay col row s)
  · intro h
    exact congrArg Reply.bit (hostGetPixel_offDisplay h s)

end Sys2Proof.Machine
end

section
/-! Words of families E and F that touch the timers and the keys (30_encoding.md R95, R102). -/

namespace Sys2Proof

theorem decode_wordXKK_ldVxDt (x : Reg) : decode (wordXKK 0xF x 0x07) = .ldVxDt x := by
  rw [decode_wordXKK_familyF]
  simp [decodeF, xField_wordXKK, kkField_wordXKK]

theorem decode_wordXKK_ldDtVx (x : Reg) : decode (wordXKK 0xF x 0x15) = .ldDtVx x := by
  rw [decode_wordXKK_familyF]
  simp [decodeF, xField_wordXKK, kkField_wordXKK]

theorem decode_wordXKK_ldStVx (x : Reg) : decode (wordXKK 0xF x 0x18) = .ldStVx x := by
  rw [decode_wordXKK_familyF]
  simp [decodeF, xField_wordXKK, kkField_wordXKK]

theorem decode_wordXKK_skp (x : Reg) : decode (wordXKK 0xE x 0x9E) = .skp x := by
  simp [decode, opField_wordXKK, xField_wordXKK, kkField_wordXKK]

theorem decode_wordXKK_sknp (x : Reg) : decode (wordXKK 0xE x 0xA1) = .sknp x := by
  simp [decode, opField_wordXKK, xField_wordXKK, kkField_wordXKK]

end Sys2Proof
end

section
/-! Timer access (44_timers_keys.md R211, R212, R213): PC advances and V[x] or one timer is written. -/

namespace Sys2Proof.Machine

open Sys2Proof.Safety

/-- An advance with a write of DT touches DT and PC alone. -/
theorem keepsAllBut_advance_dt (s : State) (b : Byte) : KeepsAllBut [.delayTimer, .pc] s { s.advance with dt := b } := by
  intro p hp
  cases p with
  | delayTimer => exact absurd List.mem_cons_self hp
  | pc => exact absurd (List.mem_cons_of_mem _ List.mem_cons_self) hp
  | regs => exact fun _ => rfl
  | _ => simp [Same]

/-- An advance with a write of ST touches ST and PC alone. -/
theorem keepsAllBut_advance_st (s : State) (b : Byte) : KeepsAllBut [.soundTimer, .pc] s { s.advance with st := b } := by
  intro p hp
  cases p with
  | soundTimer => exact absurd List.mem_cons_self hp
  | pc => exact absurd (List.mem_cons_of_mem _ List.mem_cons_self) hp
  | regs => exact fun _ => rfl
  | _ => simp [Same]

theorem exec_ldVxDt (x : Reg) (s : State) : exec (.ldVxDt x) s = .next (s.advance.setReg x s.dt) := rfl

theorem exec_ldDtVx (x : Reg) (s : State) : exec (.ldDtVx x) s = .next { s.advance with dt := s.reg x } := rfl

theorem exec_ldStVx (x : Reg) (s : State) : exec (.ldStVx x) s = .next { s.advance with st := s.reg x } := rfl

/-- Settles O51: a read of DT is a register write after the advance of PC, and the two timer loads write one timer each,
whatever it held before. -/
theorem timerLoads : Obligations.TimerLoads := by
  refine fun x => ⟨?_, ?_, ?_, fun s => ⟨?_, ?_, ?_⟩⟩
  · exact (congrArg decode (ofNat_add_mul_eq_wordXKK (by decide) x)).trans (decode_wordXKK_ldVxDt x)
  · exact (congrArg decode (ofNat_add_mul_eq_wordXKK (by decide) x)).trans (decode_wordXKK_ldDtVx x)
  · exact (congrArg decode (ofNat_add_mul_eq_wordXKK (by decide) x)).trans (decode_wordXKK_ldStVx x)
  · exact ⟨_, exec_ldVxDt x s, reg_advance_setReg_self s x s.dt, keepsRegsBut_advance_setReg s x s.dt, rfl,
      keepsAllBut_advance_setReg s x s.dt⟩
  · exact ⟨_, exec_ldDtVx x s, rfl, rfl, keepsAllBut_advance_dt s _⟩
  · exact ⟨_, exec_ldStVx x s, rfl, rfl, keepsAllBut_advance_st s _⟩

end Sys2Proof.Machine
end

section
/-! Key skips (44_timers_keys.md R214, R215): a skip is a jump, and its key is the low nibble of V[x]. -/

namespace Sys2Proof.Machine

theorem keyNumber_eq {k : Fin 16} {b : Byte} (h : k.val = b.toNat % 16) : keyNumber b = k :=
  Fin.ext ((keyNumber_val b).trans h.symm)

theorem exec_skp (x : Reg) (s : State) :
    exec (.skp x) s = .next (s.jump (s.pc + if s.key[keyNumber (s.reg x)] then 4 else 2)) :=
  skipIf_eq _ s

theorem exec_sknp (x : Reg) (s : State) :
    exec (.sknp x) s = .next (s.jump (s.pc + if s.key[keyNumber (s.reg x)] then 2 else 4)) := by
  show skipIf (!s.key[keyNumber (s.reg x)]) s = _
  rw [skipIf_eq]
  cases s.key[keyNumber (s.reg x)] <;> rfl

/-- Settles O52: both words are of the XKK format, and both skips are jumps that test the key `keyNumber` selects. -/
theorem skipOnKey : Obligations.SkipOnKey := by
  refine fun x => ⟨?_, ?_, fun s k hk => ?_⟩
  · exact (congrArg decode (ofNat_add_mul_eq_wordXKK (by decide) x)).trans (decode_wordXKK_skp x)
  · exact (congrArg decode (ofNat_add_mul_eq_wordXKK (by decide) x)).trans (decode_wordXKK_sknp x)
  · obtain rfl : keyNumber (s.reg x) = k := keyNumber_eq hk
    exact ⟨⟨_, exec_skp x s, rfl, keepsAllBut_jump s _⟩, ⟨_, exec_sknp x s, rfl, keepsAllBut_jump s _⟩⟩

end Sys2Proof.Machine
end

section
/-! Setting a key (60_exceptions.md R246): the range test passes exactly on the keypad, and there one key is written. -/

namespace Sys2Proof.Machine

open Sys2Proof.Safety

theorem hostSetKey_onKeypad (k : Fin 16) (held : Bool) (s : State) :
    hostSetKey k.val held s = { s with key := s.key.set k held } := by
  rw [hostSetKey, dif_pos (by omega)]
  rfl

theorem hostSetKey_offKeypad {index : Int} (h : index < 0 ∨ index ≥ 16) (held : Bool) (s : State) :
    hostSetKey index held s = s := by
  rw [hostSetKey, dif_neg (by omega)]

/-- After a write of key `k`, that key has the new state and every other its old one. -/
theorem key_set_getElem (key : Vector Bool 16) (k j : Fin 16) (held : Bool) :
    (key.set k held)[j] = if j = k then held else key[j] := by
  simp only [Fin.getElem_fin, Vector.getElem_set, Fin.val_inj, eq_comm]

/-- A new key file touches the keys alone. -/
theorem keepsAllBut_key (s : State) (key : Vector Bool 16) : KeepsAllBut [.keys] s { s with key := key } := by
  intro p hp
  cases p with
  | keys => exact absurd (List.mem_singleton_self _) hp
  | regs => exact fun _ => rfl
  | _ => simp [Same]

/-- Settles O55: on the keypad the event is one write of the key file, off it the state itself. -/
theorem setKeySetsOneKey : Obligations.SetKeySetsOneKey := by
  intro index held s
  refine ⟨?_, ?_⟩
  · rintro k rfl
    exact ⟨_, congrArg Host.Outcome.next (hostSetKey_onKeypad k held s), fun j => key_set_getElem s.key k j held,
      keepsAllBut_key s _⟩
  · intro h
    exact congrArg Host.Outcome.next (hostSetKey_offKeypad h held s)

end Sys2Proof.Machine
end

section
/-! Loading an image (70_reset_and_hazards.md R273, R274): the length test decides both the answer and the state, and an
image that passes it ends at the last byte of memory or before. -/

namespace Sys2Proof.Machine

open Sys2Proof.Safety

theorem loadError_fits {bytes : List Byte} (h : bytes.length ≤ 3584) : loadError bytes = none := if_pos h

theorem loadError_tooLarge {bytes : List Byte} (h : bytes.length > 3584) : loadError bytes = some .tooLarge :=
  if_neg (Nat.not_le_of_gt h)

theorem hostLoad_fits {bytes : List Byte} (h : bytes.length ≤ 3584) (s : State) :
    hostLoad bytes s = { s with mem := s.mem.writeBytes 0x200 bytes } := if_pos h

theorem hostLoad_tooLarge {bytes : List Byte} (h : bytes.length > 3584) (s : State) : hostLoad bytes s = s :=
  if_neg (Nat.not_le_of_gt h)

/-- A new memory touches the memory alone. -/
theorem keepsAllBut_mem (s : State) (m : Memory) : KeepsAllBut [.memory] s { s with mem := m } := by
  intro p hp
  cases p with
  | memory => exact absurd (List.mem_singleton_self _) hp
  | regs => exact fun _ => rfl
  | _ => simp [Same]

/-- Settles O58: an image that fits is one write of a byte string at 0x200, which ends inside memory; one that does not
leaves the state itself. -/
theorem loadCopiesImageOrRefusesWhole : Obligations.LoadCopiesImageOrRefusesWhole := by
  intro bytes s hwf
  refine ⟨fun hfits => ?_, fun hlarge => ?_⟩
  · have hend : 0x200 + bytes.length ≤ 4096 := by omega
    exact ⟨congrArg Reply.loaded (loadError_fits hfits), _, congrArg Host.Outcome.next (hostLoad_fits hfits s),
      fun k hk => Memory.read_writeBytes_self bytes hwf 0x200 k hk hend,
      fun a ha => Memory.read_writeBytes_other bytes s.mem 0x200 a ha, keepsAllBut_mem s _⟩
  · exact ⟨congrArg Reply.loaded (loadError_tooLarge hlarge), congrArg Host.Outcome.next (hostLoad_tooLarge hlarge s)⟩

end Sys2Proof.Machine
end

section
/-! Words of the XYN format (30_encoding.md R93, R103): their fields, and every word from its own fields. -/

namespace Sys2Proof

section
variable {op : Nat} (h : op < 16) (x y : Reg) (n : Fin 16)
include h

theorem opField_wordXYN : opField (wordXYN op x y n) = op := by
  rw [opField_eq, wordXYN_toNat h]
  omega

theorem xField_wordXYN : xField (wordXYN op x y n) = x := by
  apply Fin.ext
  rw [xField_val, wordXYN_toNat h]
  omega

theorem yField_wordXYN : yField (wordXYN op x y n) = y := by
  apply Fin.ext
  rw [yField_val, wordXYN_toNat h]
  omega

theorem nField_wordXYN : nField (wordXYN op x y n) = n := by
  apply Fin.ext
  rw [nField_val, wordXYN_toNat h]
  omega

end

theorem opField_lt (w : Word) : opField w < 16 := by
  have := word_lt w
  rw [opField_eq]
  omega

theorem wordNNN_fields (w : Word) : wordNNN (opField w) (nnnField w) = w := by
  apply BitVec.eq_of_toNat_eq
  rw [wordNNN_toNat (opField_lt w), opField_eq, nnnField_toNat]
  omega

theorem wordXKK_fields (w : Word) : wordXKK (opField w) (xField w) (kkField w) = w := by
  apply BitVec.eq_of_toNat_eq
  rw [wordXKK_toNat (opField_lt w), opField_eq, xField_val, kkField_toNat]
  omega

theorem wordXYN_fields (w : Word) : wordXYN (opField w) (xField w) (yField w) (nField w) = w := by
  apply BitVec.eq_of_toNat_eq
  rw [wordXYN_toNat (opField_lt w), opField_eq, xField_val, yField_val, nField_val]
  omega

end Sys2Proof
end


section
/-! Encoding a decoded word (30_encoding.md R103): the word is the word of its own fields. -/

namespace Sys2Proof

theorem wordNNN_of_fields {w : Word} {op : Nat} (h : opField w = op) : wordNNN op (nnnField w) = w := by
  rw [← h, wordNNN_fields]

theorem wordXKK_of_fields {w : Word} {op : Nat} (h : opField w = op) {kk : Byte} (hk : (kkField w).toNat = kk.toNat) :
    wordXKK op (xField w) kk = w := by
  rw [← h, ← BitVec.eq_of_toNat_eq hk, wordXKK_fields]

theorem wordXYN_of_fields {w : Word} {op : Nat} (h : opField w = op) {n : Fin 16} (hn : (nField w).val = n.val) :
    wordXYN op (xField w) (yField w) n = w := by
  rw [← h, ← Fin.ext hn, wordXYN_fields]

theorem encode_decodeAlu {w : Word} (h : opField w = 0x8) : encode (decodeAlu w) = w := by
  unfold decodeAlu
  dsimp only
  split
  case h_10 => rfl
  all_goals exact wordXYN_of_fields h ‹_›

theorem encode_decodeF {w : Word} (h : opField w = 0xF) : encode (decodeF w) = w := by
  unfold decodeF
  dsimp only
  split
  case h_10 => rfl
  all_goals exact wordXKK_of_fields h ‹_›

/-- Settles O2: each family's format puts back the fields the decoder took, and a no-op keeps its word. -/
theorem encodeOfDecodeIsIdentity : Obligations.EncodeOfDecodeIsIdentity := by
  intro w
  unfold decode
  split
  case h_1 =>
    split_ifs with hcls hret
    · exact hcls.symm
    · exact hret.symm
    · rfl
  case h_2 h | h_3 h | h_11 h | h_12 h => exact wordNNN_of_fields h
  case h_4 h | h_5 h | h_7 h | h_8 h | h_13 h => exact wordXKK_of_fields h rfl
  case h_6 h | h_10 h =>
    split_ifs with hn
    · exact wordXYN_of_fields h (congrArg Fin.val hn)
    · rfl
  case h_9 h => exact encode_decodeAlu h
  case h_14 h => exact wordXYN_of_fields h rfl
  case h_15 h =>
    split
    case h_3 => rfl
    all_goals exact wordXKK_of_fields h ‹_›
  case h_16 h => exact encode_decodeF h
  case h_17 => rfl

end Sys2Proof
end

section
/-! The no-op words (30_encoding.md R97, R98): the decoder and the opcode map both give them family by family. -/

namespace Sys2Proof

open Sys2Proof.Laws

/-- The table of 30_encoding.md R98: the words no row of the opcode map matches. -/
def NoOpWord (w : Word) : Prop :=
  let op := w.toNat / 4096
  let n := w.toNat % 16
  let kk := w.toNat % 256
  (op = 0x0 ∧ w ≠ 0x00E0#16 ∧ w ≠ 0x00EE#16) ∨ (op = 0x5 ∧ n ≠ 0) ∨
    (op = 0x8 ∧ n ∈ [0x8, 0x9, 0xA, 0xB, 0xC, 0xD, 0xF]) ∨ (op = 0x9 ∧ n ≠ 0) ∨
    (op = 0xE ∧ kk ∉ [0x9E, 0xA1]) ∨
    (op = 0xF ∧ kk ∉ [0x07, 0x0A, 0x15, 0x18, 0x1E, 0x29, 0x33, 0x55, 0x65])

theorem isNoOp_decodeAlu (w : Word) :
    isNoOp (decodeAlu w) = true ↔ w.toNat % 16 ∈ [0x8, 0x9, 0xA, 0xB, 0xC, 0xD, 0xF] := by
  have hn : w.toNat % 16 < 16 := Nat.mod_lt _ (by decide)
  unfold decodeAlu
  rw [nField_val]
  interval_cases w.toNat % 16 <;> simp [isNoOp]

theorem isNoOp_decodeF (w : Word) :
    isNoOp (decodeF w) = true ↔ w.toNat % 256 ∉ [0x07, 0x0A, 0x15, 0x18, 0x1E, 0x29, 0x33, 0x55, 0x65] := by
  unfold decodeF
  rw [kkField_toNat]
  dsimp only
  split <;> simp_all [isNoOp]

/-- What the decoder makes the no-op is what the table of R98 lists. -/
theorem isNoOp_decode (w : Word) : isNoOp (decode w) = true ↔ NoOpWord w := by
  have hn : nField w = 0 ↔ w.toNat % 16 = 0 := by rw [← nField_val, Fin.ext_iff, Fin.val_zero]
  have hop := opField_lt w
  unfold decode NoOpWord
  rw [← opField_eq]
  dsimp only
  split
  case h_1 h | h_6 h | h_10 h =>
    split_ifs <;> simp_all [isNoOp]
  case h_9 h => simp [h, isNoOp_decodeAlu]
  case h_15 h =>
    rw [kkField_toNat]
    split <;> simp_all [isNoOp]
  case h_16 h => simp [h, isNoOp_decodeF]
  case h_17 =>
    exfalso
    interval_cases opField w <;> simp_all
  all_goals simp_all [isNoOp]

theorem patFixed_fits {a b : Nat} (ha : a < 16) (hb : b < 16) (w : Word) :
    (patFixed a b).fits w = decide (w.toNat / 4096 = 0 ∧ w = BitVec.ofNat 16 (a * 16 + b)) := by
  have hw := word_lt w
  rw [Bool.eq_iff_iff]
  simp only [Pattern.fits, patFixed, digitFits, opField_eq, xField_val, yField_val, nField_val, Bool.and_eq_true,
    beq_iff_eq, decide_eq_true_eq, BitVec.toNat_eq, BitVec.toNat_ofNat]
  omega

theorem patTop_fits (op : Nat) (w : Word) : (patTop op).fits w = decide (w.toNat / 4096 = op) := by
  rw [Bool.eq_iff_iff]
  simp only [Pattern.fits, patTop, digitFits, opField_eq, Bool.and_true, beq_iff_eq, decide_eq_true_eq]

theorem patXY_fits (op n : Nat) (w : Word) :
    (patXY op n).fits w = decide (w.toNat / 4096 = op ∧ w.toNat % 16 = n) := by
  rw [Bool.eq_iff_iff]
  simp only [Pattern.fits, patXY, digitFits, opField_eq, nField_val, Bool.and_true, Bool.and_eq_true, beq_iff_eq,
    decide_eq_true_eq]

theorem patX_fits (op : Nat) {a b : Nat} (hb : b < 16) (w : Word) :
    (patX op a b).fits w = decide (w.toNat / 4096 = op ∧ w.toNat % 256 = a * 16 + b) := by
  rw [Bool.eq_iff_iff]
  simp only [Pattern.fits, patX, digitFits, opField_eq, yField_val, nField_val, Bool.and_true, Bool.and_eq_true,
    beq_iff_eq, decide_eq_true_eq, and_assoc]
  omega

/-- What no row of the opcode map matches is what the table of R98 lists. -/
theorem matchesTable_eq_false (w : Word) : matchesTable w = false ↔ NoOpWord w := by
  have hop : w.toNat / 4096 < 16 := opField_eq w ▸ opField_lt w
  unfold matchesTable NoOpWord
  simp only [patterns, patternsLow, patternsAlu, patternsHigh, List.cons_append, List.nil_append, List.any_cons,
    List.any_nil, patFixed_fits, patTop_fits, patXY_fits, patX_fits, Nat.reduceLT]
  by_cases h8 : w.toNat / 4096 = 8
  · simp only [h8]
    simp
    omega
  · interval_cases w.toNat / 4096 <;> simp_all

/-- A decoded no-op carries the word it was decoded from. -/
theorem decode_eq_nop_iff (w : Word) : decode w = .nop w ↔ isNoOp (decode w) = true := by
  have hw := encodeOfDecodeIsIdentity w
  cases hd : decode w with
  | nop v =>
    rw [hd] at hw
    exact iff_of_true (congrArg Instr.nop hw) rfl
  | _ => simp [isNoOp]

theorem decode_eq_nop_iff_matchesTable (w : Word) : decode w = .nop w ↔ matchesTable w = false := by
  rw [decode_eq_nop_iff, isNoOp_decode, matchesTable_eq_false]

theorem decode_wellFormed (w : Word) : (decode w).WellFormed := by
  by_cases h : decode w = .nop w
  · rw [h]
    simp [Instr.WellFormed, Instr.check, (decode_eq_nop_iff_matchesTable w).1 h]
  · rw [decode_eq_nop_iff] at h
    cases hd : decode w with
    | nop v => exact absurd (hd ▸ rfl) h
    | _ => rfl

/-- Settles O4: a decoded no-op carries its own word, and the decoder's no-ops are the table's. -/
theorem noOpWordsByFamily : Obligations.NoOpWordsByFamily := by
  intro w
  refine Iff.trans ⟨?_, fun h => ⟨w, (decode_eq_nop_iff w).2 h⟩⟩ (isNoOp_decode w)
  rintro ⟨v, hv⟩
  rw [hv]
  rfl

/-- Settles O3: the decoder and the opcode map have the same no-op words. -/
theorem decoderAgreesWithPatternTable : Obligations.DecoderAgreesWithPatternTable := by
  intro w
  refine ⟨decode_wellFormed w, ?_⟩
  rw [decode_eq_nop_iff_matchesTable, matchesTable, List.any_eq_false]
  simp only [Bool.not_eq_true]

end Sys2Proof
end

section
/-! Decoding an encoded instruction (30_encoding.md R102, R103): the families the tables above leave out, and all of
them. -/

namespace Sys2Proof

theorem decode_wordNNN_jp (nnn : BitVec 12) : decode (wordNNN 0x1 nnn) = .jp nnn := by
  simp [decode, opField_wordNNN, nnnField_wordNNN]

theorem decode_wordNNN_call (nnn : BitVec 12) : decode (wordNNN 0x2 nnn) = .call nnn := by
  simp [decode, opField_wordNNN, nnnField_wordNNN]

theorem decode_wordNNN_jpV0 (nnn : BitVec 12) : decode (wordNNN 0xB nnn) = .jpV0 nnn := by
  simp [decode, opField_wordNNN, nnnField_wordNNN]

theorem decode_wordXKK_rnd (x : Reg) (kk : Byte) : decode (wordXKK 0xC x kk) = .rnd x kk := by
  simp [decode, opField_wordXKK, xField_wordXKK, kkField_wordXKK]

theorem decode_wordXYN_drw (x y : Reg) (n : Fin 16) : decode (wordXYN 0xD x y n) = .drw x y n := by
  simp [decode, opField_wordXYN, xField_wordXYN, yField_wordXYN, nField_wordXYN]

theorem decode_wordXYN_seReg (x y : Reg) : decode (wordXYN 0x5 x y 0) = .seReg x y := by
  simp [decode, opField_wordXYN, xField_wordXYN, yField_wordXYN, nField_wordXYN]

theorem decode_wordXYN_sneReg (x y : Reg) : decode (wordXYN 0x9 x y 0) = .sneReg x y := by
  simp [decode, opField_wordXYN, xField_wordXYN, yField_wordXYN, nField_wordXYN]

/-- Family 8 is dispatched by `decodeAlu`, on the low nibble. -/
theorem decode_wordXYN_family8 (x y : Reg) (n : Fin 16) :
    decode (wordXYN 0x8 x y n) = decodeAlu (wordXYN 0x8 x y n) := by
  simp [decode, opField_wordXYN]

/-- Settles O1: each format keeps the fields it is given, and a well-formed no-op carries a word no row matches. -/
theorem decodeOfEncodeIsIdentity : Obligations.DecodeOfEncodeIsIdentity := by
  intro i hi
  cases i with
  | cls | ret => decide
  | jp nnn => exact decode_wordNNN_jp nnn
  | call nnn => exact decode_wordNNN_call nnn
  | ldI nnn => exact decode_wordNNN_ldI nnn
  | jpV0 nnn => exact decode_wordNNN_jpV0 nnn
  | seImm x kk => exact decode_wordXKK_seImm x kk
  | sneImm x kk => exact decode_wordXKK_sneImm x kk
  | ldImm x kk => exact decode_wordXKK_ldImm x kk
  | addImm x kk => exact decode_wordXKK_addImm x kk
  | rnd x kk => exact decode_wordXKK_rnd x kk
  | seReg x y => exact decode_wordXYN_seReg x y
  | sneReg x y => exact decode_wordXYN_sneReg x y
  | drw x y n => exact decode_wordXYN_drw x y n
  | ldReg x y | orReg x y | andReg x y | xorReg x y | addReg x y | sub x y | shr x y | subn x y | shl x y =>
    simp [encode, decode_wordXYN_family8, decodeAlu, xField_wordXYN, yField_wordXYN, nField_wordXYN]
  | skp x => exact decode_wordXKK_skp x
  | sknp x => exact decode_wordXKK_sknp x
  | ldVxDt x | ldVxK x | ldDtVx x | ldStVx x | addI x | ldF x | ldB x | stRegs x | ldRegs x =>
    simp [encode, decode_wordXKK_familyF, decodeF, xField_wordXKK, kkField_wordXKK]
  | nop w =>
    refine (decode_eq_nop_iff_matchesTable w).2 ?_
    simpa [Instr.WellFormed, Instr.check] using hi

/-- Settles O6, by running the decoder on each of the words. -/
theorem sampleWordsDecode : Obligations.SampleWordsDecode := by
  unfold Obligations.SampleWordsDecode
  decide

end Sys2Proof
end

section
/-! The opcode map has no overlap (30_encoding.md R95): any two patterns differ in a digit both fix. -/

namespace Sys2Proof

/-- Two digits of patterns that no value fits both. -/
def digitsClash : Option Nat → Option Nat → Bool
  | some j, some k => j != k
  | _, _ => false

/-- Two patterns that differ in a digit both fix. -/
def Pattern.clashes (p q : Pattern) : Bool :=
  digitsClash p.d3 q.d3 || digitsClash p.d2 q.d2 || digitsClash p.d1 q.d1 || digitsClash p.d0 q.d0

theorem digitsClash_of_fits {d e : Option Nat} {v : Nat} (hd : digitFits d v = true) (he : digitFits e v = true) :
    digitsClash d e = false := by
  cases d <;> cases e <;> simp_all [digitFits, digitsClash]

theorem Pattern.clashes_of_fits {p q : Pattern} {w : Word} (hp : p.fits w = true) (hq : q.fits w = true) :
    p.clashes q = false := by
  simp only [Pattern.fits, Bool.and_eq_true] at hp hq
  obtain ⟨⟨⟨hp3, hp2⟩, hp1⟩, hp0⟩ := hp
  obtain ⟨⟨⟨hq3, hq2⟩, hq1⟩, hq0⟩ := hq
  simp [Pattern.clashes, digitsClash_of_fits hp3 hq3, digitsClash_of_fits hp2 hq2, digitsClash_of_fits hp1 hq1,
    digitsClash_of_fits hp0 hq0]

theorem patterns_pairwise_clash : patterns.Pairwise fun p q => p.clashes q = true := by
  decide

/-- Settles O5: two patterns of the map that fit one word would clash. -/
theorem noTwoPatternsOverlap : Obligations.NoTwoPatternsOverlap := by
  intro w
  have hpair := patterns_pairwise_clash.filter fun p => p.fits w
  cases hf : patterns.filter fun p => p.fits w with
  | nil => exact Nat.zero_le 1
  | cons p ps =>
    cases ps with
    | nil => exact Nat.le_refl 1
    | cons q qs =>
      rw [hf] at hpair
      have hpq : p.clashes q = true := List.rel_of_pairwise_cons hpair List.mem_cons_self
      have hmem : ∀ r ∈ p :: q :: qs, r.fits w = true := fun r hr =>
        (List.mem_filter.1 (hf ▸ hr : r ∈ patterns.filter fun p => p.fits w)).2
      rw [Pattern.clashes_of_fits (hmem p (by simp)) (hmem q (by simp))] at hpq
      exact absurd hpq Bool.false_ne_true

end Sys2Proof
end

section
/-! What an instruction does, said once (40_flow.md to 44_timers_keys.md, 60_exceptions.md R231, R232): `exec` either
enters the fault the table names, or leaves the state `effect`. -/

namespace Sys2Proof.Machine

open Sys2Proof.Safety

/-- The canvas a draw leaves (43_display.md R192). -/
def drawn (x y : Reg) (n : Fin 16) (s : State) : Canvas :=
  drawRows s.mem s.i.toNat (startColumn (s.reg x)) (startRow (s.reg y)) (rowsDrawn n (startRow (s.reg y))) 0
    { fb := s.fb, hit := false }

/-- The state an instruction that does not fault leaves. -/
def effect (i : Instr) (s : State) : State :=
  match i with
  | .cls => { s.advance with fb := Vector.replicate 32 0, drawF := true }
  | .ret => { s with sp := s.sp - 1 }.jump (s.stack.toList.getD (s.sp.toNat - 1) 0)
  | .jp nnn => s.jump (addressOf nnn)
  | .call nnn => { s with stack := s.stack.setIfInBounds s.sp.toNat (s.pc + 2), sp := s.sp + 1 }.jump (addressOf nnn)
  | .seImm x kk => s.jump (s.pc + if s.reg x = kk then 4 else 2)
  | .sneImm x kk => s.jump (s.pc + if s.reg x = kk then 2 else 4)
  | .seReg x y => s.jump (s.pc + if s.reg x = s.reg y then 4 else 2)
  | .ldImm x kk => s.advance.setReg x kk
  | .addImm x kk => s.advance.setReg x (sumByte (s.reg x) kk)
  | .ldReg x y => s.advance.setReg x (s.reg y)
  | .orReg x y => s.advance.setReg x (s.reg x ||| s.reg y)
  | .andReg x y => s.advance.setReg x (s.reg x &&& s.reg y)
  | .xorReg x y => s.advance.setReg x (s.reg x ^^^ s.reg y)
  | .addReg x y => s.advance.setResultAndFlag x (sumByte (s.reg x) (s.reg y)) (carryFlag (s.reg x) (s.reg y))
  | .sub x y => s.advance.setResultAndFlag x (differenceByte (s.reg x) (s.reg y)) (notBorrowFlag (s.reg x) (s.reg y))
  | .shr x y => s.advance.setResultAndFlag x (shiftOperand x y s >>> 1) (rightShiftFlag (shiftOperand x y s))
  | .subn x y => s.advance.setResultAndFlag x (differenceByte (s.reg y) (s.reg x)) (notBorrowFlag (s.reg y) (s.reg x))
  | .shl x y => s.advance.setResultAndFlag x (shiftOperand x y s <<< 1) (leftShiftFlag (shiftOperand x y s))
  | .sneReg x y => s.jump (s.pc + if s.reg x = s.reg y then 2 else 4)
  | .ldI nnn => s.advance.setI (addressOf nnn)
  | .jpV0 nnn => s.jump (BitVec.ofNat 16 (nnn.toNat + (s.reg 0).toNat))
  | .rnd x kk => { s.advance with draws := s.draws + 1 }.setReg x (Config.randByte s.draws &&& kk)
  | .drw x y n =>
    { s.advance with fb := (drawn x y n s).fb, drawF := true }.setReg flagReg (flagByte (drawn x y n s).hit)
  | .skp x => s.jump (s.pc + if s.key[keyNumber (s.reg x)] then 4 else 2)
  | .sknp x => s.jump (s.pc + if s.key[keyNumber (s.reg x)] then 2 else 4)
  | .ldVxDt x => s.advance.setReg x s.dt
  | .ldVxK x =>
    match firstHeld s.key with
    | none => s
    | some k => s.advance.setReg x (BitVec.ofNat 8 k.val)
  | .ldDtVx x => { s.advance with dt := s.reg x }
  | .ldStVx x => { s.advance with st := s.reg x }
  | .addI x => s.advance.setI (BitVec.ofNat 16 (s.i.toNat + (s.reg x).toNat))
  | .ldF x => s.advance.setI (glyphAddress (s.reg x))
  | .ldB x => { s.advance with mem := s.mem.writeBytes s.i.toNat (bcdDigits (s.reg x)) }
  | .stRegs x => { s.advance with mem := s.mem.writeBytes s.i.toNat (regBlock x s) }
  | .ldRegs x => { s.advance with v := loadBlock x s.i.toNat s }
  | .nop _ => s.advance

/-- A row of the fault table as the trap that is raised. -/
def trapOf (f : FaultCause × Nat) : Trap := ⟨f.1, f.2⟩

theorem exec_seReg (x y : Reg) (s : State) :
    exec (.seReg x y) s = .next (s.jump (s.pc + if s.reg x = s.reg y then 4 else 2)) := by
  show skipIf (s.reg x == s.reg y) s = _
  simp [skipIf_eq]

theorem exec_sneReg (x y : Reg) (s : State) :
    exec (.sneReg x y) s = .next (s.jump (s.pc + if s.reg x = s.reg y then 2 else 4)) := by
  show skipIf (s.reg x != s.reg y) s = _
  simp [skipIf_eq]

/-- With no key held the rewind of PC undoes its advance (44_timers_keys.md R216). -/
theorem exec_ldVxK (x : Reg) (s : State) : exec (.ldVxK x) s = .next (effect (.ldVxK x) s) := by
  have hwait : s.advance.jump (s.advance.pc - 2) = s := by
    rw [State.advance_pc, BitVec.add_sub_cancel]
    rfl
  show Host.Outcome.next _ = .next (effect (.ldVxK x) s)
  unfold effect
  cases firstHeld s.key with
  | none => rw [hwait]
  | some k => rfl

theorem firstTrap_read_eq (a n : Nat) :
    firstTrap readTrap a n = (if n ≥ 1 then aboveMemory a (a + n - 1) else none).map trapOf := by
  rw [firstTrap_read]
  unfold aboveMemory
  by_cases hn : n ≥ 1
  · by_cases ha : a + n > 0x1000
    · rw [if_pos ⟨hn, ha⟩, if_pos hn, if_pos (by omega)]
      rfl
    · rw [if_neg (fun h => ha h.2), if_pos hn, if_neg (by omega)]
      rfl
  · rw [if_neg (fun h => hn h.1), if_neg hn]
    rfl

theorem firstTrap_write_eq (a n : Nat) :
    firstTrap writeTrap a (n + 1) = (if a < 0x200 then some (.lowWrite, a) else aboveMemory a (a + n)).map trapOf := by
  rw [firstTrap_write, if_neg (Nat.succ_ne_zero n)]
  by_cases hlow : a < 0x200
  · rw [if_pos hlow, if_pos hlow]
    rfl
  · rw [if_neg hlow, if_neg hlow, aboveMemory]
    by_cases ha : a + n > 0xFFF
    · rw [if_pos (by omega), if_pos ha]
      rfl
    · rw [if_neg (by omega), if_neg ha]
      rfl

theorem exec_ret_underflow {s : State} (h : s.sp.toNat = 0) :
    exec .ret s = .next (s.raiseFault ⟨.stackUnderflow, 0⟩ (some (encode .ret))) := by
  have hsp : s.sp = 0 := BitVec.eq_of_toNat_eq h
  show execRet s = _
  simp [execRet, hsp]

theorem byte_sub_one_toNat {b : Byte} (h : b.toNat ≠ 0) : (b - 1).toNat = b.toNat - 1 := by
  have := b.isLt
  rw [BitVec.toNat_sub, show (1 : Byte).toNat = 1 from rfl]
  omega

theorem exec_ret_pops {s : State} (h0 : s.sp.toNat ≠ 0) (h16 : s.sp.toNat ≤ 16) :
    exec .ret s = .next (effect .ret s) := by
  have hsp : s.sp ≠ 0 := fun h => h0 (congrArg BitVec.toNat h)
  have hslot := byte_sub_one_toNat h0
  show execRet s = _
  rw [execRet, if_neg hsp, dif_pos (by omega)]
  simp only [effect, hslot]
  rw [List.getD_eq_getElem _ _ (by simp; omega), Vector.getElem_toList]
  rfl

theorem exec_ret_noSlot {s : State} (h : s.sp.toNat > 16) : exec .ret s = .fault .noStackSlot := by
  have hsp : s.sp ≠ 0 := fun h0 => by simp [h0] at h
  have hslot := byte_sub_one_toNat (b := s.sp) (by omega)
  show execRet s = _
  rw [execRet, if_neg hsp, dif_neg (by omega)]

/-- Below the end of the stack the two writes of a slot are one. -/
theorem setIfInBounds_eq_set (stack : Vector Word 16) {k : Nat} (h : k < 16) (a : Word) :
    stack.setIfInBounds k a = stack.set k a h := by
  simp [Vector.setIfInBounds, Vector.set, Array.setIfInBounds, h]

theorem exec_call_pushes {s : State} (nnn : BitVec 12) (h : s.sp.toNat < 16) :
    exec (.call nnn) s = .next (effect (.call nnn) s) := by
  show execCall nnn s = _
  rw [execCall, dif_pos h, effect, setIfInBounds_eq_set _ h]
  rfl

theorem exec_call_overflow {s : State} (nnn : BitVec 12) (h : s.sp.toNat ≥ 16) :
    exec (.call nnn) s = .next (s.raiseFault ⟨.stackOverflow, s.sp.toNat⟩ (some (encode (.call nnn)))) :=
  dif_neg (Nat.not_lt.2 h)

theorem aboveMemory_eq_none_iff {a b : Nat} : aboveMemory a b = none ↔ b ≤ 0xFFF := by
  rw [aboveMemory, ite_eq_right_iff]
  simp only [reduceCtorEq, imp_false, not_lt, gt_iff_lt]

/-- A store that does not fault lies from 0x200 to 0xFFF (20_memory.md R67). -/
theorem storeFault_eq_none_iff {a b : Nat} :
    (if a < 0x200 then some (.lowWrite, a) else aboveMemory a b) = none ↔ 0x200 ≤ a ∧ b ≤ 0xFFF := by
  split_ifs with hlow
  · exact iff_of_false nofun fun h => absurd hlow (Nat.not_lt.2 h.1)
  · rw [aboveMemory_eq_none_iff]
    exact (and_iff_right (Nat.not_lt.1 hlow)).symm

/-- `exec` is the fault of the table, or the effect. -/
theorem exec_eq (i : Instr) (s : State) (hret : i = .ret → s.sp.toNat ≤ 16) :
    exec i s = completeOrTrap i ((faultTable i s).map trapOf) s (effect i s) := by
  cases i with
  | ret =>
    by_cases h0 : s.sp.toNat = 0
    · rw [exec_ret_underflow h0, faultTable, if_pos h0]
      rfl
    · rw [exec_ret_pops h0 (hret rfl), faultTable, if_neg h0]
      rfl
  | call nnn =>
    by_cases hsp : s.sp.toNat < 16
    · rw [exec_call_pushes nnn hsp, faultTable, if_neg (Nat.not_le.2 hsp)]
      rfl
    · rw [exec_call_overflow nnn (Nat.not_lt.1 hsp), faultTable, if_pos (Nat.not_lt.1 hsp)]
      rfl
  | drw x y n => exact congrArg (completeOrTrap _ · _ _) (firstTrap_read_eq _ _)
  | ldRegs x => exact congrArg (completeOrTrap _ · _ _) (firstTrap_read_eq _ _)
  | ldB x => exact congrArg (completeOrTrap _ · _ _) (firstTrap_write_eq _ _)
  | stRegs x =>
    refine congrArg (completeOrTrap _ · _ _) ?_
    rw [regBlock_length]
    exact firstTrap_write_eq _ _
  | seImm x kk => exact exec_seImm x kk s
  | sneImm x kk => exact exec_sneImm x kk s
  | seReg x y => exact exec_seReg x y s
  | sneReg x y => exact exec_sneReg x y s
  | skp x => exact exec_skp x s
  | sknp x => exact exec_sknp x s
  | ldVxK x => exact exec_ldVxK x s
  | _ => rfl

/-- The model stops an `00EE` that no slot answers (log 5). -/
theorem sp_le_of_exec_ret {s t : State} (h : exec .ret s = .next t) : s.sp.toNat ≤ 16 := by
  by_contra hsp
  rw [exec_ret_noSlot (Nat.not_le.1 hsp)] at h
  cases h

/-- What an answered instruction did: its effect, or fault entry with the table's cause and info. -/
theorem exec_next_cases {i : Instr} {s t : State} (h : exec i s = .next t) :
    (faultTable i s = none ∧ t = effect i s) ∨
      ∃ f, faultTable i s = some f ∧ t = s.raiseFault (trapOf f) (some (encode i)) := by
  rw [exec_eq i s fun hi => sp_le_of_exec_ret (hi ▸ h)] at h
  cases hf : faultTable i s with
  | none =>
    rw [hf] at h
    exact .inl ⟨rfl, (Host.Outcome.next.inj h).symm⟩
  | some f =>
    rw [hf] at h
    exact .inr ⟨f, rfl, (Host.Outcome.next.inj h).symm⟩

/-- An instruction whose accesses are all in range leaves its effect. -/
theorem exec_of_faultTable_none {i : Instr} {s : State} (hf : faultTable i s = none)
    (hret : i = .ret → s.sp.toNat ≤ 16) : exec i s = .next (effect i s) := by
  rw [exec_eq i s hret, hf]
  rfl

/-- `Fx0A` leaves the state itself, or writes V[x] after the advance of PC. -/
theorem effect_ldVxK_cases (x : Reg) (s : State) :
    effect (.ldVxK x) s = s ∨ ∃ b, effect (.ldVxK x) s = s.advance.setReg x b := by
  unfold effect
  cases firstHeld s.key with
  | none => exact .inl rfl
  | some k => exact .inr ⟨_, rfl⟩

/-- Settles O14: SP above 16 is the one case the equation of `exec` leaves out, and there `00EE` finds no slot. -/
theorem onlyReturnFromNoSlotStops : Obligations.OnlyReturnFromNoSlotStops := by
  intro i s
  by_cases hret : i = .ret → s.sp.toNat ≤ 16
  · exact .inr ⟨hret, _, exec_eq i s hret⟩
  · obtain ⟨rfl, hsp⟩ := Classical.not_imp.1 hret
    exact .inl ⟨rfl, Nat.not_le.1 hsp, exec_ret_noSlot (Nat.not_le.1 hsp)⟩

end Sys2Proof.Machine
end

section
/-! The frame of an effect (00_scope.md R11): the parts, registers, bytes, slots and pixels it leaves. -/

namespace Sys2Proof.Machine

open Sys2Proof.Safety

theorem keepsAllBut_mono {ps qs : List Part} {s t : State} (hsub : ps ⊆ qs) (h : KeepsAllBut ps s t) :
    KeepsAllBut qs s t := fun p hp => h p fun hmem => hp (hsub hmem)

theorem keepsAllBut_refl (ps : List Part) (s : State) : KeepsAllBut ps s s := by
  intro p _
  cases p <;> simp [Same]

theorem keepsAllBut_advance (s : State) : KeepsAllBut [.pc] s s.advance := keepsAllBut_jump s _

/-- Fault entry touches the latch alone (60_exceptions.md R232). -/
theorem keepsAllBut_raiseFault (s : State) (t : Trap) (w : Option Word) :
    KeepsAllBut [.latch] s (s.raiseFault t w) := by
  intro p hp
  cases p with
  | latch => exact absurd (List.mem_singleton_self _) hp
  | _ => simp [Same]

theorem keepsAllBut_setResultAndFlag (s : State) (x : Reg) (b : Byte) (f : Bool) :
    KeepsAllBut [.regs, .pc] s (s.advance.setResultAndFlag x b f) := by
  intro p hp
  cases p with
  | regs => exact absurd List.mem_cons_self hp
  | pc => exact absurd (List.mem_cons_of_mem _ List.mem_cons_self) hp
  | _ => simp [Same, State.setResultAndFlag]

theorem keepsAllBut_stack (s : State) (sp : Byte) (stack : Vector Word 16) (a : Word) :
    KeepsAllBut [.pc, .stack] s ({ s with sp := sp, stack := stack }.jump a) := by
  intro p hp
  cases p with
  | pc => exact absurd (by decide) hp
  | stack => exact absurd (by decide) hp
  | regs => exact fun _ => rfl
  | _ => simp [Same]

theorem keepsAllBut_rnd (x : Reg) (kk : Byte) (s : State) :
    KeepsAllBut [.regs, .pc, .draws] s (effect (.rnd x kk) s) := by
  intro p hp
  cases p with
  | regs | pc | draws => exact absurd (by decide) hp
  | _ => simp [Same, effect]

theorem keepsAllBut_drw (x y : Reg) (n : Fin 16) (s : State) :
    KeepsAllBut [.regs, .framebuffer, .drawFlag, .pc] s (effect (.drw x y n) s) := by
  intro p hp
  cases p with
  | regs | framebuffer | drawFlag | pc => exact absurd (by decide) hp
  | _ => simp [Same, effect]

theorem keepsAllBut_advance_mem (s : State) (m : Memory) :
    KeepsAllBut [.memory, .pc] s { s.advance with mem := m } := by
  intro p hp
  cases p with
  | memory | pc => exact absurd (by decide) hp
  | regs => exact fun _ => rfl
  | _ => simp [Same]

theorem keepsAllBut_advance_v (s : State) (v : Vector Byte 16) :
    KeepsAllBut [.regs, .pc] s { s.advance with v := v } := by
  intro p hp
  cases p with
  | regs | pc => exact absurd (by decide) hp
  | _ => simp [Same]

theorem effect_keepsAllBut (i : Instr) (s : State) : KeepsAllBut (mayWrite i) s (effect i s) := by
  cases i with
  | cls => exact keepsAllBut_mono (by simp [mayWrite]) (keepsAllBut_advance_display s _ _)
  | ret => exact keepsAllBut_mono (by simp [mayWrite]) (keepsAllBut_stack s _ s.stack _)
  | call nnn => exact keepsAllBut_mono (by simp [mayWrite]) (keepsAllBut_stack s _ _ _)
  | jp | jpV0 | seImm | sneImm | seReg | sneReg | skp | sknp => exact keepsAllBut_jump s _
  | nop w => exact keepsAllBut_advance s
  | ldImm | addImm | ldReg | orReg | andReg | xorReg | ldVxDt =>
    exact keepsAllBut_mono (by simp [mayWrite]) (keepsAllBut_advance_setReg s _ _)
  | addReg | sub | shr | subn | shl =>
    exact keepsAllBut_mono (by simp [mayWrite]) (keepsAllBut_setResultAndFlag s _ _ _)
  | ldVxK x =>
    rcases effect_ldVxK_cases x s with h | ⟨b, h⟩
    · rw [h]
      exact keepsAllBut_refl _ s
    · rw [h]
      exact keepsAllBut_mono (by simp [mayWrite]) (keepsAllBut_advance_setReg s x b)
  | rnd x kk => exact keepsAllBut_mono (by simp [mayWrite]) (keepsAllBut_rnd x kk s)
  | ldI | addI | ldF => exact keepsAllBut_mono (by simp [mayWrite]) (keepsAllBut_advance_setI s _)
  | drw x y n => exact keepsAllBut_mono (by simp [mayWrite]) (keepsAllBut_drw x y n s)
  | ldDtVx x => exact keepsAllBut_mono (by simp [mayWrite]) (keepsAllBut_advance_dt s _)
  | ldStVx x => exact keepsAllBut_mono (by simp [mayWrite]) (keepsAllBut_advance_st s _)
  | ldB | stRegs => exact keepsAllBut_mono (by simp [mayWrite]) (keepsAllBut_advance_mem s _)
  | ldRegs x => exact keepsAllBut_mono (by simp [mayWrite]) (keepsAllBut_advance_v s _)

/-- A part an instruction may not write is what it was. -/
theorem effect_same {i : Instr} {p : Part} (hp : p ∉ mayWrite i) (s : State) : Same p s (effect i s) :=
  effect_keepsAllBut i s p hp

theorem effect_reg_of_not_mayWriteReg {i : Instr} {r : Reg} (hr : ¬mayWriteReg i r) (s : State) :
    (effect i s).reg r = s.reg r := by
  cases i with
  | ldImm x | addImm x | ldReg x | orReg x | andReg x | xorReg x | ldVxDt x =>
    exact keepsRegsBut_advance_setReg s x _ r hr
  | ldVxK x =>
    rcases effect_ldVxK_cases x s with h | ⟨b, h⟩
    · rw [h]
    · rw [h]
      exact keepsRegsBut_advance_setReg s x b r hr
  | rnd x kk => exact (State.reg_setReg _ x r _).trans (if_neg hr)
  | addReg x | sub x | shr x | subn x | shl x =>
    obtain ⟨hx, h15⟩ := not_or.1 hr
    exact (State.reg_setResultAndFlag _ x r _ _).trans ((if_neg h15).trans (if_neg hx))
  | drw x y n => exact (State.reg_setReg _ flagReg r _).trans (if_neg hr)
  | ldRegs x => exact (loadBlock_get x _ s r).trans (if_neg hr)
  | _ => exact effect_same (p := .regs) (by simp [mayWrite]) s r

theorem effect_read_of_not_mayWriteByte {i : Instr} {s : State} {a : Nat} (ha : ¬mayWriteByte i s a) :
    (effect i s).mem.read a = s.mem.read a := by
  have outside : ∀ (us : List Byte) (n : Nat), us.length = n + 1 → ¬(s.i.toNat ≤ a ∧ a ≤ s.i.toNat + n) →
      (s.mem.writeBytes s.i.toNat us).read a = s.mem.read a := fun us n hlen h =>
    Memory.read_writeBytes_other us s.mem s.i.toNat a (by omega)
  cases i with
  | ldB x => exact outside _ 2 (bcdDigits_length _) ha
  | stRegs x => exact outside _ x.val (regBlock_length x s) ha
  | _ => exact effect_same (p := .memory) (by simp [mayWrite]) s a

theorem effect_slot_of_not_mayWriteSlot {i : Instr} {s : State} {k : Fin 16} (hk : ¬mayWriteSlot i s k) :
    (effect i s).stack[k] = s.stack[k] := by
  cases i with
  | call nnn => exact (Vector.getElem_setIfInBounds k.isLt).trans (if_neg fun h => hk h.symm)
  | ret => rfl
  | _ => exact (effect_same (p := .stack) (by simp [mayWrite]) s).2 k

/-- The rows a draw puts on the display, as the claims state them. -/
theorem rowsBit_eq_spriteBit (m : Memory) (a x0 y0 row col : Nat) {rows : Nat} (h : y0 + rows ≤ 32) :
    rowsBit m a x0 y0 0 rows row col = spriteBit m a x0 y0 rows row col := by
  have hrow : (y0 + 0 ≤ row ∧ row < y0 + 0 + rows) ∧ x0 + 0 ≤ col ∧ col < x0 + 0 + 8 ∧ col ≤ 63 ↔
      y0 ≤ row ∧ row < y0 + rows ∧ row ≤ 31 ∧ x0 ≤ col ∧ col < x0 + 8 ∧ col ≤ 63 := by omega
  rw [rowsBit, rowBit, spriteBit, ← Bool.and_assoc, ← Bool.decide_and, decide_eq_decide.2 hrow]

theorem rowsDrawn_fits (n : Fin 16) (b : Byte) : startRow b + rowsDrawn n (startRow b) ≤ 32 := by
  unfold rowsDrawn startRow
  omega

/-- The sprite bit of a draw, from the state before it. -/
def drawBitAt (x y : Reg) (n : Fin 16) (s : State) (row col : Nat) : Bool :=
  spriteBit s.mem s.i.toNat (startColumn (s.reg x)) (startRow (s.reg y)) (rowsDrawn n (startRow (s.reg y))) row col

theorem drawn_pixel (x y : Reg) (n : Fin 16) (s : State) (row col : Nat) :
    pixel (drawn x y n s).fb row col = (pixel s.fb row col != drawBitAt x y n s row col) := by
  have hfit := rowsDrawn_fits n (s.reg y)
  rw [drawn, drawRows_pixel _ _ _ _ _ _ _ (by omega), rowsBit_eq_spriteBit _ _ _ _ _ _ hfit]
  rfl

theorem drawn_hit (x y : Reg) (n : Fin 16) (s : State) :
    (drawn x y n s).hit = true ↔ ∃ row col, drawBitAt x y n s row col = true ∧ pixel s.fb row col = true := by
  have hfit := rowsDrawn_fits n (s.reg y)
  rw [drawn, drawRows_hit _ _ _ _ _ _ _ (by omega)]
  simp only [Bool.false_eq_true, false_or, rowsBit_eq_spriteBit _ _ _ _ _ _ hfit]
  rfl

theorem effect_pixel_of_not_mayWritePixel {i : Instr} {s : State} {row col : Nat} (h : ¬mayWritePixel i s row col) :
    pixel (effect i s).fb row col = pixel s.fb row col := by
  cases i with
  | cls => exact absurd trivial h
  | drw x y n =>
    have hbit : drawBitAt x y n s row col = false := by
      simp only [mayWritePixel] at h
      rw [drawBitAt, spriteBit, decide_eq_false, Bool.false_and]
      unfold startColumn startRow rowsDrawn
      omega
    exact (drawn_pixel x y n s row col).trans (by rw [hbit, Bool.bne_false])
  | _ => exact effect_same (p := .framebuffer) (by simp [mayWrite]) s row col

theorem latch_mem_mayWrite {i : Instr} {s : State} {f : FaultCause × Nat} (hf : faultTable i s = some f) :
    Part.latch ∈ mayWrite i := by
  cases i with
  | ret | call | drw | ldRegs | ldB | stRegs => simp [mayWrite]
  | _ => cases hf

/-- Settles O20: an effect has each of the frames, and fault entry touches the latch alone. -/
theorem instructionsWriteOnlyWhatTheyName : Obligations.InstructionsWriteOnlyWhatTheyName := by
  intro i s t h
  rcases exec_next_cases h with ⟨-, rfl⟩ | ⟨f, hf, rfl⟩
  · exact ⟨effect_keepsAllBut i s, fun r hr => effect_reg_of_not_mayWriteReg hr s,
      fun a ha => effect_read_of_not_mayWriteByte ha, fun k hk => effect_slot_of_not_mayWriteSlot hk,
      fun row col hpix => effect_pixel_of_not_mayWritePixel hpix⟩
  · exact ⟨keepsAllBut_mono (by simpa using latch_mem_mayWrite hf) (keepsAllBut_raiseFault s _ _),
      fun _ _ => rfl, fun _ _ => rfl, fun _ _ => rfl, fun _ _ _ => rfl⟩

theorem base_le_of_mayWriteByte {i : Instr} {s : State} {a : Nat} (hf : faultTable i s = none)
    (ha : mayWriteByte i s a) : 0x200 ≤ a := by
  cases i with
  | ldB | stRegs =>
    obtain ⟨hbase, -⟩ := ha
    exact (storeFault_eq_none_iff.1 hf).1.trans hbase
  | _ => cases ha

theorem effect_read_low {i : Instr} {s : State} (hf : faultTable i s = none) {a : Nat} (ha : a < 0x200) :
    (effect i s).mem.read a = s.mem.read a :=
  effect_read_of_not_mayWriteByte fun hw => absurd (base_le_of_mayWriteByte hf hw) (Nat.not_le.2 ha)

/-- Settles O23: a byte below 0x200 is none of those a store that does not fault writes. -/
theorem noStoreBelowProgramBase : Obligations.NoStoreBelowProgramBase := by
  intro i s t h a ha
  rcases exec_next_cases h with ⟨hf, rfl⟩ | ⟨f, -, rfl⟩
  · exact effect_read_low hf ha
  · rfl

end Sys2Proof.Machine
end

section
/-! Noninterference (10_state.md R29 to R35): the keys, ST and DRAWF do not enter into what most instructions do. -/

namespace Sys2Proof.Machine

open Sys2Proof.Safety

theorem faultTable_key (i : Instr) (s : State) (key : Vector Bool 16) :
    faultTable i { s with key := key } = faultTable i s := by
  cases i <;> rfl

theorem effect_key {i : Instr} (hi : ∀ x, i ≠ .skp x ∧ i ≠ .sknp x ∧ i ≠ .ldVxK x) (s : State)
    (key : Vector Bool 16) :
    effect i { s with key := key } = { effect i s with key := key } := by
  cases i with
  | skp x => exact absurd rfl (hi x).1
  | sknp x => exact absurd rfl (hi x).2.1
  | ldVxK x => exact absurd rfl (hi x).2.2
  | _ => rfl

/-- What an instruction that answers does from another state with the same SP. -/
theorem exec_eq_of_next {i : Instr} {s t : State} (h : exec i s = .next t) (u : State) (hu : u.sp = s.sp) :
    exec i u = completeOrTrap i ((faultTable i u).map trapOf) u (effect i u) :=
  exec_eq i u fun hi => hu ▸ sp_le_of_exec_ret (hi ▸ h)

/-- Settles O24: neither the table of faults nor an effect depends on the keys, but for the three key instructions. -/
theorem keysAreSeenByKeyInstructionsOnly : Obligations.KeysAreSeenByKeyInstructionsOnly := by
  intro i s t key hi h
  rw [exec_eq_of_next h { s with key := key } rfl, faultTable_key, effect_key hi]
  rcases exec_next_cases h with ⟨hf, rfl⟩ | ⟨f, hf, rfl⟩
  · rw [hf]
    rfl
  · rw [hf]
    rfl

theorem faultTable_st_drawF (i : Instr) (s : State) (b : Byte) (f : Bool) :
    faultTable i { s with st := b, drawF := f } = faultTable i s := by
  cases i <;> rfl

theorem keepsAllBut_st_drawF (s : State) (b : Byte) (f : Bool) :
    KeepsAllBut [.soundTimer, .drawFlag] s { s with st := b, drawF := f } := by
  intro p hp
  cases p with
  | soundTimer | drawFlag => exact absurd (by decide) hp
  | regs => exact fun _ => rfl
  | _ => simp [Same]

/-- With other values in ST and DRAWF the effect differs in ST and DRAWF alone. -/
theorem effect_st_drawF (i : Instr) (s : State) (b : Byte) (f : Bool) :
    ∃ b' f', effect i { s with st := b, drawF := f } = { effect i s with st := b', drawF := f' } := by
  cases i with
  | cls => exact ⟨b, true, rfl⟩
  | drw => exact ⟨b, true, rfl⟩
  | ldStVx x => exact ⟨s.reg x, f, rfl⟩
  | ldVxK x =>
    refine ⟨b, f, ?_⟩
    unfold effect
    cases firstHeld s.key <;> rfl
  | _ => exact ⟨b, f, rfl⟩

/-- Settles O25: the table of faults does not depend on ST and DRAWF, and an effect carries them to ST and DRAWF
alone. -/
theorem soundTimerAndDrawFlagAreNeverRead : Obligations.SoundTimerAndDrawFlagAreNeverRead := by
  intro i s t b f h
  rw [exec_eq_of_next h { s with st := b, drawF := f } rfl, faultTable_st_drawF]
  rcases exec_next_cases h with ⟨hf, rfl⟩ | ⟨e, hf, rfl⟩
  · obtain ⟨b', f', heff⟩ := effect_st_drawF i s b f
    rw [hf, heff]
    exact ⟨_, rfl, keepsAllBut_st_drawF _ b' f'⟩
  · rw [hf]
    exact ⟨_, rfl, keepsAllBut_st_drawF _ b f⟩

end Sys2Proof.Machine
end

section
/-! What an effect leaves in PC (10_state.md R26), in VF (R23) and in the latch (R36). -/

namespace Sys2Proof.Machine

open Sys2Proof.Safety

theorem effect_fault (i : Instr) (s : State) : (effect i s).fault = s.fault := by
  cases i with
  | rnd x kk => exact State.setReg_fault _ _ _
  | ldVxK x =>
    rcases effect_ldVxK_cases x s with h | ⟨b, h⟩
    · rw [h]
    · rw [h]
      rfl
  | _ => rfl

theorem not_raiseFault {s : State} {t : Trap} {w : Option Word} : (s.raiseFault t w).fault ≠ none :=
  Option.some_ne_none _

theorem pc_add_toNat (a : Word) (c : Prop) [Decidable c] :
    (a + if c then 4 else 2).toNat = (a.toNat + if c then 4 else 2) % 65536 := by
  rw [BitVec.toNat_add]
  split_ifs <;> rfl

theorem pc_add_toNat_not (a : Word) (c : Prop) [Decidable c] :
    (a + if c then 2 else 4).toNat = (a.toNat + if ¬c then 4 else 2) % 65536 := by
  rw [← pc_add_toNat, ite_not]

theorem key_getD (key : Vector Bool 16) (b : Byte) : key.toList.getD (b.toNat % 16) false = key[keyNumber b] := by
  rw [← keyNumber_val, List.getD_eq_getElem _ _ (by simp), Vector.getElem_toList]
  rfl

theorem effect_pc (i : Instr) (s : State) : (effect i s).pc.toNat = netPc i s := by
  have hskip := pc_add_toNat s.pc
  have hskip' := pc_add_toNat_not s.pc
  cases i with
  | ret => rfl
  | jp nnn | call nnn => exact addressOf_toNat nnn
  | jpV0 nnn => exact BitVec.toNat_ofNat _ 16
  | seImm | seReg => exact hskip _
  | sneImm | sneReg => exact hskip' _
  | skp x =>
    unfold netPc
    simp only [key_getD]
    exact hskip _
  | sknp x =>
    unfold netPc
    simp only [key_getD, ← Bool.not_eq_true]
    exact hskip' _
  | ldVxK x =>
    unfold effect netPc
    rcases firstHeld_cases s.key with ⟨hn, hkeys⟩ | ⟨k, hk, hheld, -⟩
    · rw [hn, if_neg (by simp [hkeys])]
    · rw [hk, if_pos ⟨k, hheld⟩]
      exact BitVec.toNat_add s.pc 2
  | _ => exact BitVec.toNat_add s.pc 2

/-- Settles O21: an instruction that does not fault leaves its effect. -/
theorem netChangeOfPc : Obligations.NetChangeOfPc := by
  intro i s t _ h ht
  rcases exec_next_cases h with ⟨-, rfl⟩ | ⟨f, -, rfl⟩
  · exact effect_pc i s
  · exact absurd ht not_raiseFault

theorem reg15_setResultAndFlag (s : State) (x : Reg) (b : Byte) (f : Bool) :
    (s.setResultAndFlag x b f).reg 15 = flagByte f :=
  (State.reg_setResultAndFlag s x 15 b f).trans (if_pos rfl)

/-- The last write of a flag writer is a flag's, to VF (41_alu.md R144, 43_display.md R194). -/
theorem effect_reg15_of_flagWriter {i : Instr} {x y : Reg} (s : State)
    (hi : i = .addReg x y ∨ i = .sub x y ∨ i = .shr x y ∨ i = .subn x y ∨ i = .shl x y ∨ ∃ n, i = .drw x y n) :
    ∃ f, (effect i s).reg 15 = flagByte f := by
  rcases hi with rfl | rfl | rfl | rfl | rfl | ⟨n, rfl⟩
  case inr.inr.inr.inr.inr => exact ⟨_, (State.reg_setReg _ flagReg 15 _).trans (if_pos rfl)⟩
  all_goals exact ⟨_, reg15_setResultAndFlag _ _ _ _⟩

/-- Settles O22: a flag is 0 or 1, and a flag writer that does not fault ends with VF a flag. -/
theorem flagWritersLeaveZeroOrOne : Obligations.FlagWritersLeaveZeroOrOne := by
  rintro i s t - h ht ⟨x, y, hi⟩
  rcases exec_next_cases h with ⟨-, rfl⟩ | ⟨f, -, rfl⟩
  · obtain ⟨f, hf⟩ := effect_reg15_of_flagWriter s hi
    rw [hf]
    exact flagByte_zero_or_one f
  · exact absurd ht not_raiseFault

end Sys2Proof.Machine
end

section
/-! The step (30_encoding.md R90, 60_exceptions.md R231 to R233): halted, a faulting fetch, or the instruction at PC. -/

namespace Sys2Proof.Machine

open Sys2Proof.Safety

theorem step_halted {s : State} (h : s.fault ≠ none) : step s = .next s := by
  rw [step, fetchStage_halted h]

theorem step_fetchFault {s : State} (h : s.fault = none) (hpc : s.pc.toNat > 0xFFE) :
    step s = .next (s.raiseFault ⟨.memRange, max s.pc.toNat 0x1000⟩ none) := by
  rw [step, fetchStage_running h, if_neg (Nat.not_le.2 hpc)]

theorem step_canFetch {s : State} (h : CanFetch s) : step s = exec (decode (wordAt s s.pc.toNat)) s := by
  rw [step, fetchStage_running h.1, if_pos h.2]
  rfl

/-- What an answered step did: nothing, fault entry for the fetch, or the instruction at PC. -/
theorem step_next_cases {s t : State} (h : step s = .next t) :
    (s.fault ≠ none ∧ t = s) ∨
      (s.fault = none ∧ s.pc.toNat > 0xFFE ∧ t = s.raiseFault ⟨.memRange, max s.pc.toNat 0x1000⟩ none) ∨
      (CanFetch s ∧ exec (decode (wordAt s s.pc.toNat)) s = .next t) := by
  by_cases hs : s.fault = none
  · by_cases hpc : s.pc.toNat ≤ 0xFFE
    · exact .inr (.inr ⟨⟨hs, hpc⟩, (step_canFetch ⟨hs, hpc⟩).symm.trans h⟩)
    · rw [step_fetchFault hs (Nat.not_le.1 hpc)] at h
      exact .inr (.inl ⟨hs, Nat.not_le.1 hpc, (Host.Outcome.next.inj h).symm⟩)
  · rw [step_halted hs] at h
    exact .inl ⟨hs, (Host.Outcome.next.inj h).symm⟩

/-- Settles O7: the two bytes at PC are the word the step fetches. -/
theorem stepRunsTheDecodedInstruction : Obligations.StepRunsTheDecodedInstruction := by
  rintro s i hfetch rfl
  exact step_canFetch hfetch

/-- Settles O9: the front of the step raises the fault. -/
theorem fetchAboveMemoryFaults : Obligations.FetchAboveMemoryFaults :=
  fun _ h hpc => step_fetchFault h hpc

/-- Settles O10: the front of the step ends it. -/
theorem haltedStepChangesNothing : Obligations.HaltedStepChangesNothing := fun _ => step_halted

/-- Settles O8: the placed word is fetched, and it decodes to the instruction. -/
theorem placedInstructionRunsNext : Obligations.PlacedInstructionRunsNext := by
  intro s i hm hi
  have hword : BitVec.ofNat 16 ((encode i).toNat % 2 ^ 16) = encode i := by
    rw [Nat.mod_eq_of_lt (encode i).isLt, BitVec.ofNat_toNat, BitVec.setWidth_eq]
  rw [step, State.withFetchWord, hword, fetchStage_placeWord hm]
  exact congrArg (exec · _) (decodeOfEncodeIsIdentity i hi)

/-- What an instruction of a running core leaves in the latch. -/
theorem exec_fault {i : Instr} {s t : State} (hs : s.fault = none) (h : exec i s = .next t) :
    t.fault = (faultTable i s).map fun f => { cause := f.1, pc := s.pc, opcode := some (encode i), info := f.2 } := by
  rcases exec_next_cases h with ⟨hf, rfl⟩ | ⟨f, hf, rfl⟩
  · rw [hf, effect_fault, hs]
    rfl
  · rw [hf]
    rfl

/-- Settles O13: the fetch comes first, then the fault of the fetched instruction, which its own word encodes. -/
theorem faultsAreExactlyTheTable : Obligations.FaultsAreExactlyTheTable := by
  refine ⟨fun s t hs h => ?_, fun i s t hs h => exec_fault hs h⟩
  rcases step_next_cases h with ⟨hhalt, -⟩ | ⟨-, hpc, rfl⟩ | ⟨hfetch, hexec⟩
  · exact absurd hs hhalt
  · rw [if_pos (show s.pc.toNat ≥ 0xFFF from hpc)]
    rfl
  · rw [if_neg (Nat.not_le.2 (Nat.lt_succ_of_le hfetch.2)), exec_fault hs hexec, encodeOfDecodeIsIdentity]

/-- Settles O12: an effect leaves a clear latch clear, so a step that sets the latch ended in fault entry. -/
theorem faultingStepChangesOnlyTheLatch : Obligations.FaultingStepChangesOnlyTheLatch := by
  intro s t hs h ht
  rcases step_next_cases h with ⟨hhalt, -⟩ | ⟨-, hpc, rfl⟩ | ⟨hfetch, hexec⟩
  · exact absurd hs hhalt
  · refine ⟨.memRange, max s.pc.toNat 0x1000, ?_⟩
    rw [if_neg (Nat.not_le.2 hpc)]
    rfl
  · rcases exec_next_cases hexec with ⟨-, rfl⟩ | ⟨f, -, rfl⟩
    · exact absurd ((effect_fault _ s).trans hs) ht
    · refine ⟨f.1, f.2, ?_⟩
      rw [if_pos hfetch.2, encodeOfDecodeIsIdentity]
      rfl

end Sys2Proof.Machine
end

section
/-! The invariant (10_state.md R41): it holds at reset, and every step and every event of the host keeps it. -/

namespace Sys2Proof.Machine

open Sys2Proof.Safety

theorem wf_nil : (Memory.mk []).wf := ⟨List.Pairwise.nil, fun _ h => absurd h List.not_mem_nil⟩

/-- Settles O16: SP is 0, no byte of memory is listed, and the latch is clear. -/
theorem resetMeetsInvariant : Obligations.ResetMeetsInvariant :=
  ⟨by decide, wf_nil, fun _ _ => rfl, fun _ h => by cases h⟩

theorem effect_mem_wf {i : Instr} {s : State} (hm : s.mem.wf) (hf : faultTable i s = none) : (effect i s).mem.wf := by
  have inRange : ∀ (us : List Byte) (n : Nat), us.length = n + 1 → s.i.toNat + n ≤ 0xFFF →
      (s.mem.writeBytes s.i.toNat us).wf :=
    fun us n hlen hend => Memory.writeBytes_wf us hm s.i.toNat (by omega)
  cases i with
  | ldB x => exact inRange _ 2 (bcdDigits_length _) (storeFault_eq_none_iff.1 hf).2
  | stRegs x => exact inRange _ x.val (regBlock_length x s) (storeFault_eq_none_iff.1 hf).2
  | ldVxK x =>
    rcases effect_ldVxK_cases x s with h | ⟨b, h⟩
    · rw [h]
      exact hm
    · rw [h]
      exact hm
  | _ => exact hm

theorem effect_sp_le {i : Instr} {s : State} (hsp : s.sp.toNat ≤ 16) (hf : faultTable i s = none) :
    (effect i s).sp.toNat ≤ 16 := by
  cases i with
  | ret =>
    have h0 : s.sp.toNat ≠ 0 := fun h0 => by
      rw [faultTable, if_pos h0] at hf
      cases hf
    show (s.sp - 1).toNat ≤ 16
    rw [byte_sub_one_toNat h0]
    omega
  | call nnn =>
    have h16 : s.sp.toNat < 16 := by
      by_contra h16
      rw [faultTable, if_pos (Nat.not_lt.1 h16)] at hf
      cases hf
    show (s.sp + 1).toNat ≤ 16
    rw [BitVec.toNat_add]
    exact (Nat.mod_le _ _).trans h16
  | _ => exact le_of_eq_of_le (congrArg BitVec.toNat (effect_same (p := .stack) (by simp [mayWrite]) s).1) hsp

theorem invariant_raiseFault {s : State} (h : Invariant s) (t : Trap) (w : Option Word) :
    Invariant (s.raiseFault t w) :=
  ⟨h.spInRange, h.memCanonical, h.lowMemory, fun r hr => by cases hr; rfl⟩

theorem exec_invariant {i : Instr} {s t : State} (hs : s.fault = none) (hinv : Invariant s) (h : exec i s = .next t) :
    Invariant t := by
  rcases exec_next_cases h with ⟨hf, rfl⟩ | ⟨f, -, rfl⟩
  · refine ⟨effect_sp_le hinv.spInRange hf, effect_mem_wf hinv.memCanonical hf, fun a ha => ?_, fun r hr => ?_⟩
    · exact (effect_read_low hf ha).trans (hinv.lowMemory a ha)
    · rw [effect_fault, hs] at hr
      cases hr
  · exact invariant_raiseFault hinv _ _

/-- Settles O17: a step is nothing, fault entry, or an instruction's effect, and each keeps the invariant. -/
theorem stepKeepsInvariant : Obligations.StepKeepsInvariant := by
  intro s t hinv h
  rcases step_next_cases h with ⟨-, rfl⟩ | ⟨-, -, rfl⟩ | ⟨hfetch, hexec⟩
  · exact hinv
  · exact invariant_raiseFault hinv _ _
  · exact exec_invariant hfetch.1 hinv hexec

/-- With SP in range the model does not stop. -/
theorem step_answers {s : State} (hsp : s.sp.toNat ≤ 16) : ∃ t, step s = .next t := by
  by_cases hs : s.fault = none
  · by_cases hpc : s.pc.toNat ≤ 0xFFE
    · exact ⟨_, (step_canFetch ⟨hs, hpc⟩).trans (exec_eq _ s fun _ => hsp)⟩
    · exact ⟨_, step_fetchFault hs (Nat.not_le.1 hpc)⟩
  · exact ⟨s, step_halted hs⟩

theorem hostLoad_invariant {s : State} (h : Invariant s) (bytes : List Byte) : Invariant (hostLoad bytes s) := by
  by_cases hlen : bytes.length ≤ 3584
  · rw [hostLoad_fits hlen]
    refine ⟨h.spInRange, Memory.writeBytes_wf bytes h.memCanonical 0x200 (by omega), fun a ha => ?_, h.latchAtPc⟩
    exact (Memory.read_writeBytes_other bytes s.mem 0x200 a (.inl ha)).trans (h.lowMemory a ha)
  · rw [hostLoad_tooLarge (Nat.not_le.1 hlen)]
    exact h

theorem hostSetKey_eq (index : Int) (held : Bool) (s : State) :
    ∃ key, hostSetKey index held s = { s with key := key } := by
  unfold hostSetKey
  split_ifs
  · exact ⟨_, rfl⟩
  · exact ⟨s.key, rfl⟩

/-- The invariant is a matter of SP, memory, PC and the latch. -/
theorem invariant_congr {s t : State} (hsp : t.sp = s.sp) (hmem : t.mem = s.mem) (hpc : t.pc = s.pc)
    (hfault : t.fault = s.fault) (h : Invariant s) : Invariant t where
  spInRange := hsp ▸ h.spInRange
  memCanonical := hmem ▸ h.memCanonical
  lowMemory := hmem ▸ h.lowMemory
  latchAtPc := by
    rw [hfault, hpc]
    exact h.latchAtPc

theorem applyEvent_invariant {s : State} (h : Invariant s) (e : Event) :
    ∃ t, applyEvent e s = .next t ∧ Invariant t := by
  cases e with
  | reset => exact ⟨_, rfl, invariant_congr (s := State.reset) rfl rfl rfl rfl resetMeetsInvariant⟩
  | load bytes => exact ⟨_, rfl, hostLoad_invariant h bytes⟩
  | step =>
    obtain ⟨t, ht⟩ := step_answers h.spInRange
    exact ⟨t, ht, stepKeepsInvariant s t h ht⟩
  | setKey index held =>
    obtain ⟨key, hkey⟩ := hostSetKey_eq index held s
    exact ⟨_, congrArg Host.Outcome.next hkey, invariant_congr (s := s) rfl rfl rfl rfl h⟩
  | tickTimers | getPixel | readDrawFlag | clearDrawFlag =>
    exact ⟨_, rfl, invariant_congr (s := s) rfl rfl rfl rfl h⟩

/-- Settles O18: the model's one stop needs SP above 16, and each event keeps every clause. -/
theorem stepsAndEventsKeepInvariant : Obligations.StepsAndEventsKeepInvariant :=
  fun _ h => ⟨applyEvent_invariant h .step, applyEvent_invariant h⟩

theorem runEvents_invariant (es : List Event) {s : State} (h : Invariant s) :
    ∃ t, runEvents es s = .next t ∧ Invariant t := by
  induction es generalizing s with
  | nil => exact ⟨s, rfl, h⟩
  | cons e es ih =>
    obtain ⟨u, hu, hinv⟩ := applyEvent_invariant h e
    rw [runEvents, hu]
    exact ih hinv

/-- Settles O19, by induction on the list of events. -/
theorem everyScheduleMeetsInvariant : Obligations.EveryScheduleMeetsInvariant :=
  fun es => runEvents_invariant es resetMeetsInvariant

end Sys2Proof.Machine
end

section
/-! Copy, logic and random (41_alu.md R145 to R148, R155): one register write after the advance of PC. -/

namespace Sys2Proof.Machine

open Sys2Proof.Safety

/-- An instruction that is one register write, with the value given bit by bit. -/
theorem setReg_ends {i : Instr} {x : Reg} {b : Byte} {s : State} (h : exec i s = .next (s.advance.setReg x b))
    {bits : Nat → Bool} (hbits : ∀ k, b.getLsbD k = bits k) :
    ∃ t, exec i s = .next t ∧ (∀ k < 8, (t.reg x).getLsbD k = bits k) ∧ KeepsRegsBut x s t ∧ t.pc = s.pc + 2 ∧
      KeepsAllBut [.regs, .pc] s t := by
  refine ⟨_, h, fun k _ => ?_, keepsRegsBut_advance_setReg s x b, rfl, keepsAllBut_advance_setReg s x b⟩
  rw [reg_advance_setReg_self, hbits]

/-- Settles O28: the value written is the copy, OR, AND or XOR of the bytes, and each of these works bit by bit. -/
theorem copyAndLogicWriteOnlyVx : Obligations.CopyAndLogicWriteOnlyVx := fun _ _ _ =>
  ⟨setReg_ends rfl fun _ => rfl, setReg_ends rfl fun _ => BitVec.getLsbD_or,
    setReg_ends rfl fun _ => BitVec.getLsbD_and, setReg_ends rfl fun _ => BitVec.getLsbD_xor⟩

/-- Settles O32: the byte written is the draw under the mask, and the frame is the effect's. -/
theorem randomByteIsMasked : Obligations.RandomByteIsMasked := by
  intro x kk s
  have hreg : ∀ r, (effect (.rnd x kk) s).reg r = if r = x then Config.randByte s.draws &&& kk else s.reg r :=
    fun r => State.reg_setReg _ x r _
  refine ⟨_, exec_of_faultTable_none rfl nofun, fun k _ => ?_, rfl, fun r hr => ?_, rfl, keepsAllBut_rnd x kk s⟩
  · rw [hreg, if_pos rfl, BitVec.getLsbD_and]
  · rw [hreg, if_neg hr]

end Sys2Proof.Machine
end

section
/-! The flag writers of family 8 (41_alu.md R149 to R153): the result, then the flag, after the advance of PC. -/

namespace Sys2Proof.Machine

open Sys2Proof.Safety

/-- An instruction that is a result and a flag: the result is in V[x] unless the flag is there. -/
theorem setResultAndFlag_ends {i : Instr} {x : Reg} {b : Byte} {f : Bool} {s : State}
    (h : exec i s = .next (s.advance.setResultAndFlag x b f)) :
    ∃ t, exec i s = .next t ∧ (x ≠ 15 → t.reg x = b) ∧ t.reg 15 = flagByte f ∧
      (∀ r : Reg, r ≠ x → r ≠ 15 → t.reg r = s.reg r) ∧ t.pc = s.pc + 2 ∧ KeepsAllBut [.regs, .pc] s t := by
  refine ⟨_, h, fun hx => ?_, reg15_setResultAndFlag _ _ _ _, fun r hx h15 => ?_, rfl,
    keepsAllBut_setResultAndFlag s x b f⟩
  · rw [State.reg_setResultAndFlag, if_neg hx, if_pos rfl]
  · rw [State.reg_setResultAndFlag, if_neg h15, if_neg hx, State.advance_reg]

theorem carryFlag_toNat (a b : Byte) : (flagByte (carryFlag a b)).toNat = if a.toNat + b.toNat > 255 then 1 else 0 := by
  rw [flagByte_toNat, carryFlag]
  simp only [decide_eq_true_eq]

theorem notBorrowFlag_toNat (a b : Byte) :
    (flagByte (notBorrowFlag a b)).toNat = if a.toNat ≥ b.toNat then 1 else 0 := by
  rw [flagByte_toNat, notBorrowFlag]
  simp only [decide_eq_true_eq]

theorem differenceByte_add (a b : Byte) : ((differenceByte a b).toNat + b.toNat) % 256 = a.toNat := by
  have := a.isLt
  have := b.isLt
  rw [differenceByte_toNat]
  omega

/-- Settles O29: the sum and the carry are those of the old V[x] and V[y], and the flag is written last. -/
theorem addRegistersWithCarryFlag : Obligations.AddRegistersWithCarryFlag := by
  intro x y s
  obtain ⟨t, ht, hresult, hflag, hframe⟩ := setResultAndFlag_ends (i := .addReg x y) (s := s) rfl
  refine ⟨t, ht, fun hx => ?_, ?_, hframe⟩
  · rw [hresult hx, sumByte_toNat]
  · rw [hflag, carryFlag_toNat]

/-- A difference with its not-borrow flag, as the claims state it. -/
theorem difference_ends {i : Instr} {x : Reg} {a b : Byte} {s : State}
    (h : exec i s = .next (s.advance.setResultAndFlag x (differenceByte a b) (notBorrowFlag a b))) :
    ∃ t, exec i s = .next t ∧ (x ≠ 15 → ((t.reg x).toNat + b.toNat) % 256 = a.toNat) ∧
      (t.reg 15).toNat = (if a.toNat ≥ b.toNat then 1 else 0) ∧ (∀ r : Reg, r ≠ x → r ≠ 15 → t.reg r = s.reg r) ∧
      t.pc = s.pc + 2 ∧ KeepsAllBut [.regs, .pc] s t := by
  obtain ⟨t, ht, hresult, hflag, hframe⟩ := setResultAndFlag_ends h
  refine ⟨t, ht, fun hx => ?_, ?_, hframe⟩
  · rw [hresult hx, differenceByte_add]
  · rw [hflag, notBorrowFlag_toNat]

/-- Settles O30: the two differ in which operand is the minuend. -/
theorem subtractWithNotBorrowFlag : Obligations.SubtractWithNotBorrowFlag := fun _ _ _ =>
  ⟨difference_ends rfl, difference_ends rfl⟩

/-- Settles O31: both shifts work on `shiftOperand`, whichever register SHIFT_SOURCE makes it. -/
theorem shiftsByOneBit : Obligations.ShiftsByOneBit := by
  intro x y s operand
  have hop : (shiftOperand x y s).toNat = operand := rfl
  obtain ⟨t, ht, htresult, htflag, htframe⟩ := setResultAndFlag_ends (i := .shr x y) (s := s) rfl
  obtain ⟨u, hu, huresult, huflag, huframe⟩ := setResultAndFlag_ends (i := .shl x y) (s := s) rfl
  refine ⟨⟨t, ht, fun hx => ?_, ?_, htframe⟩, ⟨u, hu, fun hx => ?_, ?_, huframe⟩⟩
  · rw [htresult hx, shiftRight_toNat, hop]
  · rw [htflag, rightShiftFlag_toNat, hop]
  · rw [huresult hx, shiftLeft_toNat, hop]
  · rw [huflag, leftShiftFlag_toNat, hop]

end Sys2Proof.Machine
end

section
/-! Jumps, register skips, calls and returns, the no-op (40_flow.md R121 to R128, 30_encoding.md R97). -/

namespace Sys2Proof.Machine

open Sys2Proof.Safety

theorem exec_jp (nnn : BitVec 12) (s : State) : exec (.jp nnn) s = .next (s.jump (addressOf nnn)) := rfl

/-- A jump to PC is the identity. -/
theorem exec_jp_self {nnn : BitVec 12} {s : State} (h : s.pc.toNat = nnn.toNat) : exec (.jp nnn) s = .next s := by
  have hpc : addressOf nnn = s.pc := BitVec.eq_of_toNat_eq ((addressOf_toNat nnn).trans h.symm)
  rw [exec_jp, hpc]
  rfl

/-- Settles O33: the word is of the NNN format, and its effect is a jump. -/
theorem jumpAbsolute : Obligations.JumpAbsolute := fun nnn =>
  ⟨decode_wordNNN_jp nnn, fun s =>
    ⟨⟨_, exec_jp nnn s, addressOf_toNat nnn, keepsAllBut_jump s _⟩, exec_jp_self⟩⟩

/-- Settles O34: nnn + V[0] is at most 0xFFF + 0xFF, which fits PC. -/
theorem jumpIndexedByV0 : Obligations.JumpIndexedByV0 := by
  refine fun nnn => ⟨decode_wordNNN_jpV0 nnn, fun s => ?_⟩
  have hn := nnn.isLt
  have hv := (s.reg 0).isLt
  have hpc : (effect (.jpV0 nnn) s).pc.toNat = nnn.toNat + (s.reg 0).toNat := by
    rw [effect_pc, netPc]
    omega
  exact ⟨_, exec_of_faultTable_none rfl nofun, hpc, by omega, keepsAllBut_jump s _⟩

/-- Settles O36: both skips are jumps. -/
theorem skipOnRegisters : Obligations.SkipOnRegisters := fun x y s =>
  ⟨⟨_, exec_seReg x y s, rfl, keepsAllBut_jump s _⟩, ⟨_, exec_sneReg x y s, rfl, keepsAllBut_jump s _⟩⟩

theorem byte_add_one_toNat {b : Byte} (h : b.toNat < 16) : (b + 1).toNat = b.toNat + 1 := by
  rw [BitVec.toNat_add, show (1 : Byte).toNat = 1 from rfl]
  omega

/-- The slots after a call. -/
theorem effect_call_slot (nnn : BitVec 12) (s : State) (k : Fin 16) :
    (effect (.call nnn) s).stack[k] = if k.val = s.sp.toNat then s.pc + 2 else s.stack[k] := by
  refine (Vector.getElem_setIfInBounds k.isLt).trans ?_
  simp only [eq_comm]
  rfl

/-- The return address of a return is the slot below SP. -/
theorem effect_ret_pc {s : State} {k : Fin 16} (h : s.sp.toNat = k.val + 1) : (effect .ret s).pc = s.stack[k] := by
  show s.stack.toList.getD (s.sp.toNat - 1) 0 = s.stack[k]
  rw [h, Nat.add_sub_cancel, List.getD_eq_getElem _ _ (by simp), Vector.getElem_toList]
  rfl

/-- Settles O37: with SP below 16 a call writes the slot of SP alone. -/
theorem callPushesReturnAddress : Obligations.CallPushesReturnAddress := fun nnn s h =>
  ⟨_, exec_call_pushes nnn h, byte_add_one_toNat h, addressOf_toNat nnn, effect_call_slot nnn s,
    keepsAllBut_stack s _ _ _⟩

/-- Settles O38: with SP from 1 to 16 a return reads the slot below SP and writes none. -/
theorem returnPopsAddress : Obligations.ReturnPopsAddress := by
  intro s k h
  have h0 : s.sp.toNat ≠ 0 := by omega
  refine ⟨_, exec_ret_pops h0 (by omega), ?_, effect_ret_pc h, fun _ => rfl, keepsAllBut_stack s _ s.stack _⟩
  exact (byte_sub_one_toNat h0).trans (by omega)

/-- Settles O39: the slot the return reads is the one the call wrote. -/
theorem returnUndoesCall : Obligations.ReturnUndoesCall := by
  intro nnn s h
  have hsp : (effect (.call nnn) s).sp.toNat = s.sp.toNat + 1 := byte_add_one_toNat h
  refine ⟨_, _, exec_call_pushes nnn h, exec_ret_pops (by omega) (by omega), ?_, ?_, ?_⟩
  · rw [effect_ret_pc (k := ⟨s.sp.toNat, h⟩) hsp, effect_call_slot, if_pos rfl]
  · exact BitVec.add_sub_cancel s.sp 1
  · exact keepsAllBut_stack s _ _ _

/-- Settles O40: the no-op's effect is the advance of PC, and an unmatched word at PC decodes to it. -/
theorem noOpOnlyAdvances : Obligations.NoOpOnlyAdvances := by
  refine ⟨fun w s => ⟨_, rfl, rfl, keepsAllBut_advance s⟩, fun s hfetch hfits => ?_⟩
  rw [step_canFetch hfetch, ((decoderAgreesWithPatternTable _).2).2 hfits]
  rfl

end Sys2Proof.Machine
end

section
/-! Stores and loads at I (42_index_memory.md R175 to R177): a block in range is written or read whole. -/

namespace Sys2Proof.Machine

open Sys2Proof.Safety

theorem exec_ldB_inRange (x : Reg) {s : State} (hlo : 0x200 ≤ s.i.toNat) (hhi : s.i.toNat + 2 ≤ 0xFFF) :
    exec (.ldB x) s = .next (effect (.ldB x) s) :=
  exec_of_faultTable_none (storeFault_eq_none_iff.2 ⟨hlo, hhi⟩) nofun

theorem exec_stRegs_inRange {x : Reg} {s : State} (hlo : 0x200 ≤ s.i.toNat) (hhi : s.i.toNat + x.val ≤ 0xFFF) :
    exec (.stRegs x) s = .next (effect (.stRegs x) s) :=
  exec_of_faultTable_none (storeFault_eq_none_iff.2 ⟨hlo, hhi⟩) nofun

theorem exec_ldRegs_inRange {x : Reg} {s : State} (hhi : s.i.toNat + x.val ≤ 0xFFF) :
    exec (.ldRegs x) s = .next (effect (.ldRegs x) s) :=
  exec_of_faultTable_none (aboveMemory_eq_none_iff.2 hhi) nofun

theorem effect_ldRegs_reg (x : Reg) (s : State) (k : Reg) :
    (effect (.ldRegs x) s).reg k = if k ≤ x then s.mem.read (s.i.toNat + k.val) else s.reg k :=
  loadBlock_get x s.i.toNat s k

theorem effect_stRegs_read {x : Reg} {s : State} (hm : s.mem.wf) (hhi : s.i.toNat + x.val ≤ 0xFFF) {k : Reg}
    (hk : k ≤ x) :
    (effect (.stRegs x) s).mem.read (s.i.toNat + k.val) = s.reg k := by
  have hkx : k.val ≤ x.val := hk
  have hlen := regBlock_length x s
  exact (Memory.read_writeBytes_self (regBlock x s) hm s.i.toNat k.val (by omega) (by omega)).trans
    (regBlock_get x s k hk)

/-- Settles O43: the run written at I is V[0] to V[x]. -/
theorem storeRegistersAtIndex : Obligations.StoreRegistersAtIndex := by
  intro x s hm hlo hhi
  refine ⟨_, exec_stRegs_inRange hlo hhi, fun k hk => effect_stRegs_read hm hhi hk, fun a ha => ?_, rfl,
    keepsAllBut_advance_mem s _⟩
  exact effect_read_of_not_mayWriteByte (i := .stRegs x) (s := s) fun hw => by
    obtain ⟨hlow, hhigh⟩ := hw
    omega

/-- Settles O44: the new V file is the block at I below the old registers above x. -/
theorem loadRegistersFromIndex : Obligations.LoadRegistersFromIndex := fun x s hhi =>
  ⟨_, exec_ldRegs_inRange hhi, effect_ldRegs_reg x s, rfl, keepsAllBut_advance_v s _⟩

/-- Settles O45: the block the load reads is the one the store wrote at the same I. -/
theorem loadAfterStoreKeepsRegisters : Obligations.LoadAfterStoreKeepsRegisters := by
  intro x s hm hlo hhi
  refine ⟨_, _, exec_stRegs_inRange hlo hhi, exec_ldRegs_inRange hhi, fun r => ?_⟩
  rw [effect_ldRegs_reg]
  split_ifs with hr
  · exact effect_stRegs_read hm hhi hr
  · rfl

/-- The three bytes a store of decimal digits leaves at I. -/
theorem effect_ldB_read (x : Reg) {s : State} (hm : s.mem.wf) (hhi : s.i.toNat + 2 ≤ 0xFFF) :
    ((effect (.ldB x) s).mem.read s.i.toNat).toNat = (s.reg x).toNat / 100 ∧
      ((effect (.ldB x) s).mem.read (s.i.toNat + 1)).toNat = (s.reg x).toNat / 10 % 10 ∧
      ((effect (.ldB x) s).mem.read (s.i.toNat + 2)).toNat = (s.reg x).toNat % 10 := by
  have hv := (s.reg x).isLt
  have hread : ∀ k (hk : k < 3), (effect (.ldB x) s).mem.read (s.i.toNat + k) = (bcdDigits (s.reg x))[k]'hk :=
    fun k hk => Memory.read_writeBytes_self (bcdDigits (s.reg x)) hm s.i.toNat k hk
      (by rw [bcdDigits_length]; omega)
  have hnarrow : ∀ n, n < 256 → (BitVec.ofNat 8 n).toNat = n := fun n hn => by
    rw [BitVec.toNat_ofNat, Nat.mod_eq_of_lt hn]
  refine ⟨?_, ?_, ?_⟩
  · exact (congrArg BitVec.toNat (hread 0 (by decide))).trans (hnarrow _ (by omega))
  · exact (congrArg BitVec.toNat (hread 1 (by decide))).trans (hnarrow _ (by omega))
  · exact (congrArg BitVec.toNat (hread 2 (by decide))).trans (hnarrow _ (by omega))

/-- Settles O42: the digits are the quotient by 100, the tens of V[x], and its rest by 10. -/
theorem bcdStoresThreeDigits : Obligations.BcdStoresThreeDigits := by
  intro x s hm hlo hhi
  have hv := (s.reg x).isLt
  obtain ⟨h0, h1, h2⟩ := effect_ldB_read x hm hhi
  refine ⟨_, exec_ldB_inRange x hlo hhi, by omega, fun k hk => ?_, fun a ha => ?_, rfl, keepsAllBut_advance_mem s _⟩
  · interval_cases k
    · rw [Nat.add_zero]
      omega
    · omega
    · omega
  · exact effect_read_of_not_mayWriteByte (i := .ldB x) (s := s) fun hw => by
      obtain ⟨hlow, hhigh⟩ := hw
      omega

/-- Settles O46: the glyph's five bytes lie in the table at the bottom of memory, which nothing has changed. -/
theorem glyphOfDigitIsLoaded : Obligations.GlyphOfDigitIsLoaded := by
  intro x s hinv
  have hi : (effect (.ldF x) s).i.toNat = (s.reg x).toNat % 16 * 5 := glyphAddress_toNat (s.reg x)
  have hload : (effect (.ldF x) s).i.toNat + (4 : Reg).val ≤ 0xFFF := by
    rw [hi, show (4 : Reg).val = 4 from rfl]
    omega
  refine ⟨_, _, exec_of_faultTable_none rfl nofun, exec_ldRegs_inRange hload, fun k => ?_⟩
  have hk : (s.reg x).toNat % 16 * 5 + k.val < 80 := by omega
  have hk4 : (⟨k.val, by omega⟩ : Reg) ≤ 4 := Nat.le_of_lt_succ k.isLt
  refine ⟨hk, ?_⟩
  rw [effect_ldRegs_reg, if_pos hk4, hi]
  exact (hinv.lowMemory _ (by omega)).trans (dif_pos hk)

theorem pc_add_two_toNat {a : Word} (h : a.toNat + 2 < 65536) : (a + 2).toNat = a.toNat + 2 := by
  rw [BitVec.toNat_add]
  exact Nat.mod_eq_of_lt h

/-- Settles O47: the bytes at the advanced PC are bytes j and j + 1 of the block. -/
theorem storedCodeRunsNext : Obligations.StoredCodeRunsNext := by
  intro x j s hj hm hs hlo hhi hpc
  have hpc' : (effect (.stRegs x) s).pc.toNat = s.i.toNat + j.val :=
    (pc_add_two_toNat (by omega)).trans hpc
  have hread : ∀ k : Reg, k ≤ x → (effect (.stRegs x) s).mem.read (s.i.toNat + k.val) = s.reg k :=
    fun k hk => effect_stRegs_read hm hhi hk
  have hfetch : CanFetch (effect (.stRegs x) s) := ⟨(effect_fault _ s).trans hs, by omega⟩
  refine ⟨_, exec_stRegs_inRange hlo hhi, ?_⟩
  rw [step_canFetch hfetch, hpc', wordAt, hread j (Nat.le_of_lt hj), Nat.add_assoc,
    hread ⟨j.val + 1, by omega⟩ hj]
  rfl

end Sys2Proof.Machine
end

section
/-! A draw (43_display.md R192 to R195): what it leaves on the display and in VF, and the same draw again. -/

namespace Sys2Proof.Machine

open Sys2Proof.Safety

theorem faultTable_drw_none {x y : Reg} {n : Fin 16} {s : State}
    (h : s.i.toNat + min n.val (32 - (s.reg y).toNat % 32) ≤ 0x1000 ∨ min n.val (32 - (s.reg y).toNat % 32) = 0) :
    faultTable (.drw x y n) s = none := by
  unfold faultTable
  dsimp only
  split_ifs with hrows
  · exact aboveMemory_eq_none_iff.2 (by omega)
  · rfl

theorem exec_drw_inRange {x y : Reg} {n : Fin 16} {s : State}
    (h : s.i.toNat + min n.val (32 - (s.reg y).toNat % 32) ≤ 0x1000 ∨ min n.val (32 - (s.reg y).toNat % 32) = 0) :
    exec (.drw x y n) s = .next (effect (.drw x y n) s) :=
  exec_of_faultTable_none (faultTable_drw_none h) nofun

theorem effect_drw_reg (x y : Reg) (n : Fin 16) (s : State) (r : Reg) :
    (effect (.drw x y n) s).reg r = if r = 15 then flagByte (drawn x y n s).hit else s.reg r :=
  State.reg_setReg _ flagReg r _

theorem effect_drw_pixel (x y : Reg) (n : Fin 16) (s : State) (row col : Nat) :
    pixel (effect (.drw x y n) s).fb row col = (pixel s.fb row col != drawBitAt x y n s row col) :=
  drawn_pixel x y n s row col

theorem flagByte_eq_one_iff (f : Bool) : flagByte f = 1#8 ↔ f = true := by
  cases f <;> decide

theorem effect_drw_flag (x y : Reg) (n : Fin 16) (s : State) :
    (effect (.drw x y n) s).reg 15 = 1#8 ↔
      ∃ row col, drawBitAt x y n s row col = true ∧ pixel s.fb row col = true := by
  rw [effect_drw_reg, if_pos rfl, flagByte_eq_one_iff, drawn_hit]

/-- Settles O49: the blit in closed form, from the registers before VF is written. -/
theorem drawXorsSpriteOntoScreen : Obligations.DrawXorsSpriteOntoScreen := by
  intro x y n s x0 y0 rows bit h
  refine ⟨_, exec_drw_inRange h, effect_drw_pixel x y n s, ?_, effect_drw_flag x y n s, rfl, fun r hr => ?_, rfl,
    keepsAllBut_drw x y n s⟩
  · rw [effect_drw_reg, if_pos rfl]
    exact flagByte_zero_or_one _
  · rw [effect_drw_reg, if_neg hr]

/-- A draw whose coordinates are not in VF leaves what the next such draw reads. -/
theorem drawBitAt_effect_drw {x y : Reg} (hx : x ≠ 15) (hy : y ≠ 15) (n : Fin 16) (s : State) :
    drawBitAt x y n (effect (.drw x y n) s) = drawBitAt x y n s := by
  funext row col
  unfold drawBitAt
  rw [effect_drw_reg, if_neg hx, effect_drw_reg, if_neg hy]
  rfl

/-- Settles O50: both draws put the same bits, and a bit put twice is no bit. -/
theorem drawTwiceRestoresScreen : Obligations.DrawTwiceRestoresScreen := by
  intro x y n s hx hy x0 y0 rows bit h
  have hy' : (effect (.drw x y n) s).reg y = s.reg y := by rw [effect_drw_reg, if_neg hy]
  refine ⟨_, _, exec_drw_inRange h, exec_drw_inRange (by rw [hy']; exact h), fun row col => ?_, ?_⟩
  · rw [effect_drw_pixel, effect_drw_pixel, drawBitAt_effect_drw hx hy, Bool.bne_assoc,
      bne_self_eq_false, Bool.bne_false]
  · rw [effect_drw_flag, drawBitAt_effect_drw hx hy]
    refine exists_congr fun row => exists_congr fun col => and_congr_right fun hbit => ?_
    rw [effect_drw_pixel, hbit, Bool.bne_true, Bool.not_eq_true']

end Sys2Proof.Machine
end

section
/-! Waiting for a key (44_timers_keys.md R216). -/

namespace Sys2Proof.Machine

open Sys2Proof.Safety

theorem firstHeld_none {key : Vector Bool 16} (h : ∀ k : Fin 16, key[k] = false) : firstHeld key = none := by
  rcases firstHeld_cases key with ⟨hn, -⟩ | ⟨k, -, hk, -⟩
  · exact hn
  · exact absurd hk (by simp [h])

theorem firstHeld_least {key : Vector Bool 16} {k : Fin 16} (hk : key[k] = true)
    (hlt : ∀ j : Fin 16, j < k → key[j] = false) :
    firstHeld key = some k := by
  rcases firstHeld_cases key with ⟨-, hn⟩ | ⟨j, hj, hheld, hleast⟩
  · exact absurd hk (by simp [hn])
  · rw [hj]
    rcases lt_trichotomy j k with hjk | rfl | hkj
    · exact absurd hheld (by simp [hlt j hjk])
    · rfl
    · exact absurd hk (by simp [hleast k hkj])

theorem effect_ldVxK_none (x : Reg) {s : State} (h : firstHeld s.key = none) : effect (.ldVxK x) s = s := by
  rw [effect, h]

theorem effect_ldVxK_some (x : Reg) {s : State} {k : Fin 16} (h : firstHeld s.key = some k) :
    effect (.ldVxK x) s = s.advance.setReg x (BitVec.ofNat 8 k.val) := by
  rw [effect, h]

/-- Settles O53: the scan finds no key, or the least one held. -/
theorem waitForKeyTakesLowestHeld : Obligations.WaitForKeyTakesLowestHeld := by
  intro x s
  refine ⟨fun hnone => ?_, fun k hk hlt => ?_⟩
  · rw [exec_ldVxK, effect_ldVxK_none x (firstHeld_none hnone)]
  · rw [exec_ldVxK, effect_ldVxK_some x (firstHeld_least hk hlt)]
    refine ⟨_, rfl, ?_, keepsRegsBut_advance_setReg s x _, rfl, keepsAllBut_advance_setReg s x _⟩
    rw [reg_advance_setReg_self, BitVec.toNat_ofNat]
    omega

end Sys2Proof.Machine
end

section
/-! The host's events (60_exceptions.md R233, R243, 70_reset_and_hazards.md R270, R281, 43_display.md R198, R199). -/

namespace Sys2Proof.Machine

open Sys2Proof.Safety

theorem tickDown_toNat (b : Byte) : (tickDown b).toNat = b.toNat - 1 := by
  unfold tickDown
  split_ifs with h
  · exact byte_sub_one_toNat (Nat.ne_of_gt h)
  · omega

/-- n ticks count both timers down and leave the rest of the state as data. -/
theorem runEvents_ticks (n : Nat) (s : State) :
    ∃ dt st, runEvents (List.replicate n .tickTimers) s = .next { s with dt := dt, st := st } ∧
      dt.toNat = s.dt.toNat - n ∧ st.toNat = s.st.toNat - n := by
  induction n generalizing s with
  | zero => exact ⟨s.dt, s.st, rfl, rfl, rfl⟩
  | succ n ih =>
    obtain ⟨dt, st, hrun, hdt, hst⟩ := ih (hostTickTimers s)
    refine ⟨dt, st, hrun, hdt.trans ?_, hst.trans ?_⟩
    · rw [hostTickTimers, tickDown_toNat]
      omega
    · rw [hostTickTimers, tickDown_toNat]
      omega

theorem keepsAllBut_timers (s : State) (dt st : Byte) :
    KeepsAllBut [.delayTimer, .soundTimer] s { s with dt := dt, st := st } := by
  intro p hp
  cases p with
  | delayTimer | soundTimer => exact absurd (by decide) hp
  | regs => exact fun _ => rfl
  | _ => simp [Same]

/-- Settles O54, by induction on the number of ticks. -/
theorem ticksCountDownToZero : Obligations.TicksCountDownToZero := by
  intro n s
  obtain ⟨dt, st, hrun, hdt, hst⟩ := runEvents_ticks n s
  exact ⟨_, hrun, hdt, hst, keepsAllBut_timers s dt st⟩

theorem keepsAllBut_drawF (s : State) (f : Bool) : KeepsAllBut [.drawFlag] s { s with drawF := f } := by
  intro p hp
  cases p with
  | drawFlag => exact absurd (by decide) hp
  | regs => exact fun _ => rfl
  | _ => simp [Same]

/-- Settles O57: the clear writes DRAWF alone, and the effects of `00E0` and `Dxyn` set it whatever it was. -/
theorem drawFlagEvents : Obligations.DrawFlagEvents := fun s =>
  ⟨⟨_, rfl, rfl, keepsAllBut_drawF s false, ⟨_, exec_cls _, rfl⟩,
    fun _ _ _ h => ⟨_, exec_drw_inRange h, rfl⟩⟩, rfl, rfl⟩

/-- Settles O59, by the definition of `hostInitialize`. -/
theorem initializeGivesResetState : Obligations.InitializeGivesResetState := fun _ => rfl

/-- Settles O15: registers, slots, keys and pixels are read from constant vectors, and memory lists no byte. -/
theorem resetStateValues : Obligations.ResetStateValues := by
  refine ⟨rfl, rfl, rfl, fun a => dif_pos a.isLt, rfl, rfl, fun r => ?_, fun k => ⟨?_, ?_⟩, pixel_replicate_zero, rfl,
    rfl, fun a ha => dif_neg (Nat.not_lt.2 ha)⟩
  · exact Vector.getElem_replicate r.isLt
  · exact Vector.getElem_replicate k.isLt
  · exact Vector.getElem_replicate k.isLt

/-- Every event but `Initialize` and `Step` leaves PC and the latch. -/
theorem applyEvent_keeps_latch {e : Event} (hreset : e ≠ .reset) (hstep : e ≠ .step) (s : State) :
    ∃ t, applyEvent e s = .next t ∧ t.fault = s.fault ∧ t.pc = s.pc := by
  cases e with
  | reset => exact absurd rfl hreset
  | step => exact absurd rfl hstep
  | load bytes =>
    refine ⟨_, rfl, ?_⟩
    unfold hostLoad
    split_ifs <;> exact ⟨rfl, rfl⟩
  | setKey index held =>
    obtain ⟨key, hkey⟩ := hostSetKey_eq index held s
    exact ⟨_, congrArg Host.Outcome.next hkey, rfl, rfl⟩
  | tickTimers | getPixel | readDrawFlag | clearDrawFlag => exact ⟨_, rfl, rfl, rfl⟩

/-- Settles O11: a halted step is the identity, the other events do not touch the latch, and each acts as it does on a
running core. -/
theorem onlyInitializeClearsTheLatch : Obligations.OnlyInitializeClearsTheLatch := by
  intro s r hr
  have hstep : step s = .next s := step_halted (by simp [hr])
  refine ⟨fun e he => ?_, ⟨_, rfl, rfl⟩, hstep, ⟨_, rfl, tickDown_toNat s.dt, tickDown_toNat s.st⟩,
    fun k held => ?_, fun col row => ?_, rfl, ⟨_, rfl, rfl⟩, fun bytes hm hlen => ?_⟩
  · by_cases hs : e = .step
    · subst hs
      exact ⟨s, hstep, hr, rfl⟩
    · rw [← hr]
      exact applyEvent_keeps_latch he hs s
  · obtain ⟨t, ht, hkey, -⟩ := (setKeySetsOneKey k.val held s).1 k rfl
    exact ⟨t, ht, (hkey k).trans (if_pos rfl)⟩
  · exact (getPixelIsTotalAndReadOnly col.val row.val s).2.1 col row rfl rfl
  · obtain ⟨-, t, ht, hread, -⟩ := (loadCopiesImageOrRefusesWhole bytes s hm).1 hlen
    exact ⟨t, ht, hread⟩

/-- The end of a program is a matter of PC, memory and the latch (70_reset_and_hazards.md R281). -/
theorem ended_congr {s t : State} (hpc : t.pc = s.pc) (hmem : t.mem = s.mem) (hfault : t.fault = s.fault)
    (h : Ended s) : Ended t := by
  unfold Ended CanFetch wordAt at *
  rw [hpc, hmem, hfault]
  exact h

theorem step_ended {s : State} (h : Ended s) : step s = .next s := by
  obtain ⟨hfetch, nnn, hword, hpc⟩ := h
  have hw : wordAt s s.pc.toNat = wordNNN 0x1 nnn :=
    BitVec.eq_of_toNat_eq (hword.trans (wordNNN_toNat (op := 0x1) (by decide) nnn).symm)
  rw [step_canFetch hfetch, hw, decode_wordNNN_jp, exec_jp_self hpc]

/-- Settles O60: the step is a jump to PC, and no event but `Initialize` and `Load` touches PC, memory or the latch. -/
theorem endedProgramStaysEnded : Obligations.EndedProgramStaysEnded := by
  refine fun s h => ⟨step_ended h, fun e hreset hload => ?_⟩
  cases e with
  | reset => exact absurd rfl hreset
  | load bytes => exact absurd rfl (hload bytes)
  | step => exact ⟨s, step_ended h, h⟩
  | setKey index held =>
    obtain ⟨key, hkey⟩ := hostSetKey_eq index held s
    exact ⟨_, congrArg Host.Outcome.next hkey, ended_congr (s := s) rfl rfl rfl h⟩
  | tickTimers | getPixel | readDrawFlag | clearDrawFlag => exact ⟨_, rfl, ended_congr (s := s) rfl rfl rfl h⟩

end Sys2Proof.Machine
end
